-- ==== Sys2Proof/Word.lean ====
section
/-! DEFINITION. The machine's words (spec/00_scope.md R8, R11): XLEN = 64 bit vectors with wraparound, 32-bit instruction words, bytes. -/

namespace Sys2Proof

/-- One byte of RAM (R29). -/
abbrev Byte := BitVec 8

/-- A register value, an address or a pc value: XLEN = 64 (R8, R11). -/
abbrev Word := BitVec 64

/-- An instruction word: ILEN = 32, always (R8, R70). -/
abbrev InstrWord := BitVec 32

end Sys2Proof
end

