-- ==== Sys2Proof/Syntax.lean ====
section
/-! DEFINITION. The instructions as syntax: the closed list of 50 of spec/30_encoding.md R90, one constructor each. -/

namespace Sys2Proof

/-- A register field: a 5-bit index that selects `x0` to `x31` directly (R73). -/
abbrev Reg := Fin 32

/-- The instructions of R90, in the table's order. Immediates are the encoded values before extension: 12 bits (I, S), a shift amount
of 6 or 5 bits (R80), the 20 bits `w[31:12]` (U), and the byte offset of a branch (13 bits) or of JAL (21 bits), bit 0 included. -/
inductive Instr where
  /-- `lb rd, imm(rs1)` (R121). -/
  | lb (rd rs1 : Reg) (imm : BitVec 12)
  /-- `lh rd, imm(rs1)` (R122). -/
  | lh (rd rs1 : Reg) (imm : BitVec 12)
  /-- `lw rd, imm(rs1)` (R123). -/
  | lw (rd rs1 : Reg) (imm : BitVec 12)
  /-- `ld rd, imm(rs1)` (R124). -/
  | ld (rd rs1 : Reg) (imm : BitVec 12)
  /-- `lbu rd, imm(rs1)` (R125). -/
  | lbu (rd rs1 : Reg) (imm : BitVec 12)
  /-- `lhu rd, imm(rs1)` (R126). -/
  | lhu (rd rs1 : Reg) (imm : BitVec 12)
  /-- `lwu rd, imm(rs1)` (R127). -/
  | lwu (rd rs1 : Reg) (imm : BitVec 12)
  /-- `addi rd, rs1, imm` (R131). -/
  | addi (rd rs1 : Reg) (imm : BitVec 12)
  /-- `slli rd, rs1, shamt` (R132). -/
  | slli (rd rs1 : Reg) (shamt : BitVec 6)
  /-- `slti rd, rs1, imm` (R133). -/
  | slti (rd rs1 : Reg) (imm : BitVec 12)
  /-- `sltiu rd, rs1, imm` (R134). -/
  | sltiu (rd rs1 : Reg) (imm : BitVec 12)
  /-- `xori rd, rs1, imm` (R135). -/
  | xori (rd rs1 : Reg) (imm : BitVec 12)
  /-- `srli rd, rs1, shamt` (R136). -/
  | srli (rd rs1 : Reg) (shamt : BitVec 6)
  /-- `srai rd, rs1, shamt` (R137). -/
  | srai (rd rs1 : Reg) (shamt : BitVec 6)
  /-- `ori rd, rs1, imm` (R138). -/
  | ori (rd rs1 : Reg) (imm : BitVec 12)
  /-- `andi rd, rs1, imm` (R139). -/
  | andi (rd rs1 : Reg) (imm : BitVec 12)
  /-- `auipc rd, imm20` (R151). -/
  | auipc (rd : Reg) (imm20 : BitVec 20)
  /-- `addiw rd, rs1, imm` (R140). -/
  | addiw (rd rs1 : Reg) (imm : BitVec 12)
  /-- `slliw rd, rs1, shamt` (R141). -/
  | slliw (rd rs1 : Reg) (shamt : BitVec 5)
  /-- `srliw rd, rs1, shamt` (R142). -/
  | srliw (rd rs1 : Reg) (shamt : BitVec 5)
  /-- `sraiw rd, rs1, shamt` (R143). -/
  | sraiw (rd rs1 : Reg) (shamt : BitVec 5)
  /-- `sb rs2, imm(rs1)` (R156). -/
  | sb (rs2 rs1 : Reg) (imm : BitVec 12)
  /-- `sh rs2, imm(rs1)` (R157). -/
  | sh (rs2 rs1 : Reg) (imm : BitVec 12)
  /-- `sw rs2, imm(rs1)` (R158). -/
  | sw (rs2 rs1 : Reg) (imm : BitVec 12)
  /-- `sd rs2, imm(rs1)` (R159). -/
  | sd (rs2 rs1 : Reg) (imm : BitVec 12)
  /-- `add rd, rs1, rs2` (R161). -/
  | add (rd rs1 rs2 : Reg)
  /-- `mul rd, rs1, rs2` (R162). -/
  | mul (rd rs1 rs2 : Reg)
  /-- `sub rd, rs1, rs2` (R163). -/
  | sub (rd rs1 rs2 : Reg)
  /-- `sll rd, rs1, rs2` (R164). -/
  | sll (rd rs1 rs2 : Reg)
  /-- `slt rd, rs1, rs2` (R165). -/
  | slt (rd rs1 rs2 : Reg)
  /-- `sltu rd, rs1, rs2` (R166). -/
  | sltu (rd rs1 rs2 : Reg)
  /-- `xor rd, rs1, rs2` (R167). -/
  | xor (rd rs1 rs2 : Reg)
  /-- `srl rd, rs1, rs2` (R168). -/
  | srl (rd rs1 rs2 : Reg)
  /-- `sra rd, rs1, rs2` (R169). -/
  | sra (rd rs1 rs2 : Reg)
  /-- `or rd, rs1, rs2` (R170). -/
  | or (rd rs1 rs2 : Reg)
  /-- `and rd, rs1, rs2` (R171). -/
  | and (rd rs1 rs2 : Reg)
  /-- `lui rd, imm20` (R152). -/
  | lui (rd : Reg) (imm20 : BitVec 20)
  /-- `addw rd, rs1, rs2` (R172). -/
  | addw (rd rs1 rs2 : Reg)
  /-- `subw rd, rs1, rs2` (R173). -/
  | subw (rd rs1 rs2 : Reg)
  /-- `sllw rd, rs1, rs2` (R174). -/
  | sllw (rd rs1 rs2 : Reg)
  /-- `srlw rd, rs1, rs2` (R175). -/
  | srlw (rd rs1 rs2 : Reg)
  /-- `sraw rd, rs1, rs2` (R176). -/
  | sraw (rd rs1 rs2 : Reg)
  /-- `beq rs1, rs2, offset` (R181). -/
  | beq (rs1 rs2 : Reg) (off : BitVec 13)
  /-- `bne rs1, rs2, offset` (R182). -/
  | bne (rs1 rs2 : Reg) (off : BitVec 13)
  /-- `blt rs1, rs2, offset` (R183). -/
  | blt (rs1 rs2 : Reg) (off : BitVec 13)
  /-- `bge rs1, rs2, offset` (R184). -/
  | bge (rs1 rs2 : Reg) (off : BitVec 13)
  /-- `bltu rs1, rs2, offset` (R185). -/
  | bltu (rs1 rs2 : Reg) (off : BitVec 13)
  /-- `bgeu rs1, rs2, offset` (R186). -/
  | bgeu (rs1 rs2 : Reg) (off : BitVec 13)
  /-- `jalr rd, imm(rs1)` (R187). -/
  | jalr (rd rs1 : Reg) (imm : BitVec 12)
  /-- `jal rd, offset` (R188). -/
  | jal (rd : Reg) (off : BitVec 21)
  deriving DecidableEq, Repr

/-- The mnemonic of spec/opcode_table.json an instruction stands for. -/
def Instr.mnemonic : Instr → String
  | .lb _ _ _ => "LB"
  | .lh _ _ _ => "LH"
  | .lw _ _ _ => "LW"
  | .ld _ _ _ => "LD"
  | .lbu _ _ _ => "LBU"
  | .lhu _ _ _ => "LHU"
  | .lwu _ _ _ => "LWU"
  | .addi _ _ _ => "ADDI"
  | .slli _ _ _ => "SLLI"
  | .slti _ _ _ => "SLTI"
  | .sltiu _ _ _ => "SLTIU"
  | .xori _ _ _ => "XORI"
  | .srli _ _ _ => "SRLI"
  | .srai _ _ _ => "SRAI"
  | .ori _ _ _ => "ORI"
  | .andi _ _ _ => "ANDI"
  | .auipc _ _ => "AUIPC"
  | .addiw _ _ _ => "ADDIW"
  | .slliw _ _ _ => "SLLIW"
  | .srliw _ _ _ => "SRLIW"
  | .sraiw _ _ _ => "SRAIW"
  | .sb _ _ _ => "SB"
  | .sh _ _ _ => "SH"
  | .sw _ _ _ => "SW"
  | .sd _ _ _ => "SD"
  | .add _ _ _ => "ADD"
  | .mul _ _ _ => "MUL"
  | .sub _ _ _ => "SUB"
  | .sll _ _ _ => "SLL"
  | .slt _ _ _ => "SLT"
  | .sltu _ _ _ => "SLTU"
  | .xor _ _ _ => "XOR"
  | .srl _ _ _ => "SRL"
  | .sra _ _ _ => "SRA"
  | .or _ _ _ => "OR"
  | .and _ _ _ => "AND"
  | .lui _ _ => "LUI"
  | .addw _ _ _ => "ADDW"
  | .subw _ _ _ => "SUBW"
  | .sllw _ _ _ => "SLLW"
  | .srlw _ _ _ => "SRLW"
  | .sraw _ _ _ => "SRAW"
  | .beq _ _ _ => "BEQ"
  | .bne _ _ _ => "BNE"
  | .blt _ _ _ => "BLT"
  | .bge _ _ _ => "BGE"
  | .bltu _ _ _ => "BLTU"
  | .bgeu _ _ _ => "BGEU"
  | .jalr _ _ _ => "JALR"
  | .jal _ _ => "JAL"

end Sys2Proof
end

