-- ==== Sys2Proof/WellFormed.lean ====
section
/-! DEFINITION. Which instructions have an encoding. The field types already bound registers, immediates and shift amounts; what is left
to check is that a branch or jump offset is even, since its bit 0 has no place in the word (spec/30_encoding.md R77, R79). -/

namespace Sys2Proof

/-- A branch offset has bit 0 zero: `immB` is an even value (R77). -/
def branchOffsetEven (off : BitVec 13) : Bool := !off.getLsbD 0

/-- A JAL offset has bit 0 zero: `immJ` is an even value (R79). -/
def jumpOffsetEven (off : BitVec 21) : Bool := !off.getLsbD 0

/-- The instruction can be encoded as a word of R70. -/
def Instr.wellFormed : Instr → Bool
  | .lb _ _ _ => true
  | .lh _ _ _ => true
  | .lw _ _ _ => true
  | .ld _ _ _ => true
  | .lbu _ _ _ => true
  | .lhu _ _ _ => true
  | .lwu _ _ _ => true
  | .addi _ _ _ => true
  | .slli _ _ _ => true
  | .slti _ _ _ => true
  | .sltiu _ _ _ => true
  | .xori _ _ _ => true
  | .srli _ _ _ => true
  | .srai _ _ _ => true
  | .ori _ _ _ => true
  | .andi _ _ _ => true
  | .auipc _ _ => true
  | .addiw _ _ _ => true
  | .slliw _ _ _ => true
  | .srliw _ _ _ => true
  | .sraiw _ _ _ => true
  | .sb _ _ _ => true
  | .sh _ _ _ => true
  | .sw _ _ _ => true
  | .sd _ _ _ => true
  | .add _ _ _ => true
  | .mul _ _ _ => true
  | .sub _ _ _ => true
  | .sll _ _ _ => true
  | .slt _ _ _ => true
  | .sltu _ _ _ => true
  | .xor _ _ _ => true
  | .srl _ _ _ => true
  | .sra _ _ _ => true
  | .or _ _ _ => true
  | .and _ _ _ => true
  | .lui _ _ => true
  | .addw _ _ _ => true
  | .subw _ _ _ => true
  | .sllw _ _ _ => true
  | .srlw _ _ _ => true
  | .sraw _ _ _ => true
  | .beq _ _ off => branchOffsetEven off
  | .bne _ _ off => branchOffsetEven off
  | .blt _ _ off => branchOffsetEven off
  | .bge _ _ off => branchOffsetEven off
  | .bltu _ _ off => branchOffsetEven off
  | .bgeu _ _ off => branchOffsetEven off
  | .jalr _ _ _ => true
  | .jal _ off => jumpOffsetEven off

end Sys2Proof
end

