-- ==== Sys2Proof/Decode.lean ====
section
/-! DEFINITION. The decoder of spec/30_encoding.md (field extraction R70, R71, R75 to R80; three-level dispatch R85 to R92), total on every
32-bit word and rejecting by name; after it the encoder, written from the formats of R70 and the selector values of R90; and the opcode
table itself as (mask, match) rows. The funct3, funct7 and funct6 values are the spec's decision D3 (log entry 9). -/

namespace Sys2Proof

/-! ## Fields (R71) -/

/-- `opcode = w[6:0]`. -/
def opcode (w : InstrWord) : BitVec 7 := w.extractLsb' 0 7

/-- `rd = w[11:7]`. -/
def fieldRd (w : InstrWord) : Reg := (w.extractLsb' 7 5).toFin

/-- `funct3 = w[14:12]`. -/
def funct3 (w : InstrWord) : BitVec 3 := w.extractLsb' 12 3

/-- `rs1 = w[19:15]`. -/
def fieldRs1 (w : InstrWord) : Reg := (w.extractLsb' 15 5).toFin

/-- `rs2 = w[24:20]`. -/
def fieldRs2 (w : InstrWord) : Reg := (w.extractLsb' 20 5).toFin

/-- `funct7 = w[31:25]`, the selector of R85. -/
def funct7 (w : InstrWord) : BitVec 7 := w.extractLsb' 25 7

/-- `funct6 = w[31:26]`, the selector of SLLI, SRLI and SRAI (R86). -/
def funct6 (w : InstrWord) : BitVec 6 := w.extractLsb' 26 6

/-! ## Immediate fields, before extension (R75 to R80) -/

/-- I: `w[31:20]` (R75). -/
def fieldImmI (w : InstrWord) : BitVec 12 := w.extractLsb' 20 12

/-- S: the bits w[31:25], w[11:7] (R76). -/
def fieldImmS (w : InstrWord) : BitVec 12 := w.extractLsb' 25 7 ++ w.extractLsb' 7 5

/-- B: the bits w[31], w[7], w[30:25], w[11:8] and a zero (R77). -/
def fieldImmB (w : InstrWord) : BitVec 13 :=
  w.extractLsb' 31 1 ++ w.extractLsb' 7 1 ++ w.extractLsb' 25 6 ++ w.extractLsb' 8 4 ++ 0#1

/-- U: `w[31:12]` (R78). -/
def fieldImmU (w : InstrWord) : BitVec 20 := w.extractLsb' 12 20

/-- J: the bits w[31], w[19:12], w[20], w[30:21] and a zero (R79). -/
def fieldImmJ (w : InstrWord) : BitVec 21 :=
  w.extractLsb' 31 1 ++ w.extractLsb' 12 8 ++ w.extractLsb' 20 1 ++ w.extractLsb' 21 10 ++ 0#1

/-- `shamt6 = w[25:20]` (R80). -/
def fieldShamt6 (w : InstrWord) : BitVec 6 := w.extractLsb' 20 6

/-- `shamt5 = w[24:20]` (R80). -/
def fieldShamt5 (w : InstrWord) : BitVec 5 := w.extractLsb' 20 5

/-! ## Dispatch (R85) -/

/-- Why a word is no instruction: the level of R85's dispatch that has no entry for it. Each of the three makes `execute` raise
`UnimplementedInstruction` (R91, R203). -/
inductive DecodeReject where
  /-- The opcode is none of the eleven of R74. -/
  | unknownOpcode
  /-- No row of the opcode has this funct3. -/
  | unknownFunct3
  /-- No row of the opcode and funct3 has this funct7 (or funct6). -/
  | unknownSelector
  deriving DecidableEq, Repr

/-- LOAD, opcode 0x03: selected by funct3 alone (R120). -/
def decodeLoad (w : InstrWord) : Except DecodeReject Instr :=
  match funct3 w with
  | 0b000#3 => .ok (.lb (fieldRd w) (fieldRs1 w) (fieldImmI w))
  | 0b001#3 => .ok (.lh (fieldRd w) (fieldRs1 w) (fieldImmI w))
  | 0b010#3 => .ok (.lw (fieldRd w) (fieldRs1 w) (fieldImmI w))
  | 0b011#3 => .ok (.ld (fieldRd w) (fieldRs1 w) (fieldImmI w))
  | 0b100#3 => .ok (.lbu (fieldRd w) (fieldRs1 w) (fieldImmI w))
  | 0b101#3 => .ok (.lhu (fieldRd w) (fieldRs1 w) (fieldImmI w))
  | 0b110#3 => .ok (.lwu (fieldRd w) (fieldRs1 w) (fieldImmI w))
  | _ => .error .unknownFunct3

/-- OP-IMM, opcode 0x13; the shifts split on funct6 (R86, R87). -/
def decodeOpImm (w : InstrWord) : Except DecodeReject Instr :=
  match funct3 w with
  | 0b000#3 => .ok (.addi (fieldRd w) (fieldRs1 w) (fieldImmI w))
  | 0b001#3 =>
    match funct6 w with
    | 0b000000#6 => .ok (.slli (fieldRd w) (fieldRs1 w) (fieldShamt6 w))
    | _ => .error .unknownSelector
  | 0b010#3 => .ok (.slti (fieldRd w) (fieldRs1 w) (fieldImmI w))
  | 0b011#3 => .ok (.sltiu (fieldRd w) (fieldRs1 w) (fieldImmI w))
  | 0b100#3 => .ok (.xori (fieldRd w) (fieldRs1 w) (fieldImmI w))
  | 0b101#3 =>
    match funct6 w with
    | 0b000000#6 => .ok (.srli (fieldRd w) (fieldRs1 w) (fieldShamt6 w))
    | 0b010000#6 => .ok (.srai (fieldRd w) (fieldRs1 w) (fieldShamt6 w))
    | _ => .error .unknownSelector
  | 0b110#3 => .ok (.ori (fieldRd w) (fieldRs1 w) (fieldImmI w))
  | 0b111#3 => .ok (.andi (fieldRd w) (fieldRs1 w) (fieldImmI w))

/-- OP-IMM-32, opcode 0x1b; the shifts are selected by funct7 (R87, R141 to R143). -/
def decodeOpImm32 (w : InstrWord) : Except DecodeReject Instr :=
  match funct3 w with
  | 0b000#3 => .ok (.addiw (fieldRd w) (fieldRs1 w) (fieldImmI w))
  | 0b001#3 =>
    match funct7 w with
    | 0b0000000#7 => .ok (.slliw (fieldRd w) (fieldRs1 w) (fieldShamt5 w))
    | _ => .error .unknownSelector
  | 0b101#3 =>
    match funct7 w with
    | 0b0000000#7 => .ok (.srliw (fieldRd w) (fieldRs1 w) (fieldShamt5 w))
    | 0b0100000#7 => .ok (.sraiw (fieldRd w) (fieldRs1 w) (fieldShamt5 w))
    | _ => .error .unknownSelector
  | _ => .error .unknownFunct3

/-- STORE, opcode 0x23: selected by funct3 alone (R155). -/
def decodeStore (w : InstrWord) : Except DecodeReject Instr :=
  match funct3 w with
  | 0b000#3 => .ok (.sb (fieldRs2 w) (fieldRs1 w) (fieldImmS w))
  | 0b001#3 => .ok (.sh (fieldRs2 w) (fieldRs1 w) (fieldImmS w))
  | 0b010#3 => .ok (.sw (fieldRs2 w) (fieldRs1 w) (fieldImmS w))
  | 0b011#3 => .ok (.sd (fieldRs2 w) (fieldRs1 w) (fieldImmS w))
  | _ => .error .unknownFunct3

/-- OP, opcode 0x33: selected by funct3 and funct7 (R87, R160). -/
def decodeOp (w : InstrWord) : Except DecodeReject Instr :=
  match funct3 w with
  | 0b000#3 =>
    match funct7 w with
    | 0b0000000#7 => .ok (.add (fieldRd w) (fieldRs1 w) (fieldRs2 w))
    | 0b0000001#7 => .ok (.mul (fieldRd w) (fieldRs1 w) (fieldRs2 w))
    | 0b0100000#7 => .ok (.sub (fieldRd w) (fieldRs1 w) (fieldRs2 w))
    | _ => .error .unknownSelector
  | 0b001#3 =>
    match funct7 w with
    | 0b0000000#7 => .ok (.sll (fieldRd w) (fieldRs1 w) (fieldRs2 w))
    | _ => .error .unknownSelector
  | 0b010#3 =>
    match funct7 w with
    | 0b0000000#7 => .ok (.slt (fieldRd w) (fieldRs1 w) (fieldRs2 w))
    | _ => .error .unknownSelector
  | 0b011#3 =>
    match funct7 w with
    | 0b0000000#7 => .ok (.sltu (fieldRd w) (fieldRs1 w) (fieldRs2 w))
    | _ => .error .unknownSelector
  | 0b100#3 =>
    match funct7 w with
    | 0b0000000#7 => .ok (.xor (fieldRd w) (fieldRs1 w) (fieldRs2 w))
    | _ => .error .unknownSelector
  | 0b101#3 =>
    match funct7 w with
    | 0b0000000#7 => .ok (.srl (fieldRd w) (fieldRs1 w) (fieldRs2 w))
    | 0b0100000#7 => .ok (.sra (fieldRd w) (fieldRs1 w) (fieldRs2 w))
    | _ => .error .unknownSelector
  | 0b110#3 =>
    match funct7 w with
    | 0b0000000#7 => .ok (.or (fieldRd w) (fieldRs1 w) (fieldRs2 w))
    | _ => .error .unknownSelector
  | 0b111#3 =>
    match funct7 w with
    | 0b0000000#7 => .ok (.and (fieldRd w) (fieldRs1 w) (fieldRs2 w))
    | _ => .error .unknownSelector

/-- OP-32, opcode 0x3b: selected by funct3 and funct7 (R87, R160). -/
def decodeOp32 (w : InstrWord) : Except DecodeReject Instr :=
  match funct3 w with
  | 0b000#3 =>
    match funct7 w with
    | 0b0000000#7 => .ok (.addw (fieldRd w) (fieldRs1 w) (fieldRs2 w))
    | 0b0100000#7 => .ok (.subw (fieldRd w) (fieldRs1 w) (fieldRs2 w))
    | _ => .error .unknownSelector
  | 0b001#3 =>
    match funct7 w with
    | 0b0000000#7 => .ok (.sllw (fieldRd w) (fieldRs1 w) (fieldRs2 w))
    | _ => .error .unknownSelector
  | 0b101#3 =>
    match funct7 w with
    | 0b0000000#7 => .ok (.srlw (fieldRd w) (fieldRs1 w) (fieldRs2 w))
    | 0b0100000#7 => .ok (.sraw (fieldRd w) (fieldRs1 w) (fieldRs2 w))
    | _ => .error .unknownSelector
  | _ => .error .unknownFunct3

/-- BRANCH, opcode 0x63: selected by funct3 alone (R180). -/
def decodeBranch (w : InstrWord) : Except DecodeReject Instr :=
  match funct3 w with
  | 0b000#3 => .ok (.beq (fieldRs1 w) (fieldRs2 w) (fieldImmB w))
  | 0b001#3 => .ok (.bne (fieldRs1 w) (fieldRs2 w) (fieldImmB w))
  | 0b100#3 => .ok (.blt (fieldRs1 w) (fieldRs2 w) (fieldImmB w))
  | 0b101#3 => .ok (.bge (fieldRs1 w) (fieldRs2 w) (fieldImmB w))
  | 0b110#3 => .ok (.bltu (fieldRs1 w) (fieldRs2 w) (fieldImmB w))
  | 0b111#3 => .ok (.bgeu (fieldRs1 w) (fieldRs2 w) (fieldImmB w))
  | _ => .error .unknownFunct3

/-- JALR, opcode 0x67: only funct3 0b000 (R87, R187). -/
def decodeJalr (w : InstrWord) : Except DecodeReject Instr :=
  match funct3 w with
  | 0b000#3 => .ok (.jalr (fieldRd w) (fieldRs1 w) (fieldImmI w))
  | _ => .error .unknownFunct3

/-- The decoder: dispatch on opcode, then funct3, then the selector (R85). LUI, AUIPC and JAL are selected by the opcode alone. -/
def decode (w : InstrWord) : Except DecodeReject Instr :=
  match opcode w with
  | 0x03#7 => decodeLoad w
  | 0x13#7 => decodeOpImm w
  | 0x17#7 => .ok (.auipc (fieldRd w) (fieldImmU w))
  | 0x1b#7 => decodeOpImm32 w
  | 0x23#7 => decodeStore w
  | 0x33#7 => decodeOp w
  | 0x37#7 => .ok (.lui (fieldRd w) (fieldImmU w))
  | 0x3b#7 => decodeOp32 w
  | 0x63#7 => decodeBranch w
  | 0x67#7 => decodeJalr w
  | 0x6f#7 => .ok (.jal (fieldRd w) (fieldImmJ w))
  | _ => .error .unknownOpcode

/-- The decoder on an instruction as spec/opcode_table.json numbers its bits. Every row has 32 bits and every instruction is one 32-bit
word (R70), which the RAM holds little-endian (R46), so bit k of the table's numbering is bit k of the fetched word. -/
def decodeTableWord (nbits w : Nat) : Option Instr :=
  match decode (BitVec.ofNat 32 (w % 2 ^ nbits)) with
  | .ok i => some i
  | .error _ => none

/-! ## The encoder: the formats of R70, most significant field first -/

/-- A register number as its 5-bit field (R73). -/
def regField (r : Reg) : BitVec 5 := BitVec.ofFin r

/-- R: funct7, rs2, rs1, funct3, rd, opcode. -/
def packR (f7 : BitVec 7) (rs2 rs1 : Reg) (f3 : BitVec 3) (rd : Reg) (op : BitVec 7) : InstrWord :=
  f7 ++ regField rs2 ++ regField rs1 ++ f3 ++ regField rd ++ op

/-- I: imm[11:0], rs1, funct3, rd, opcode. -/
def packI (imm : BitVec 12) (rs1 : Reg) (f3 : BitVec 3) (rd : Reg) (op : BitVec 7) : InstrWord :=
  imm ++ regField rs1 ++ f3 ++ regField rd ++ op

/-- I-shift64: funct6, shamt[5:0], rs1, funct3, rd, opcode. -/
def packShift64 (f6 : BitVec 6) (shamt : BitVec 6) (rs1 : Reg) (f3 : BitVec 3) (rd : Reg) (op : BitVec 7) : InstrWord :=
  f6 ++ shamt ++ regField rs1 ++ f3 ++ regField rd ++ op

/-- I-shift32: funct7, shamt[4:0], rs1, funct3, rd, opcode. -/
def packShift32 (f7 : BitVec 7) (shamt : BitVec 5) (rs1 : Reg) (f3 : BitVec 3) (rd : Reg) (op : BitVec 7) : InstrWord :=
  f7 ++ shamt ++ regField rs1 ++ f3 ++ regField rd ++ op

/-- S: imm[11:5], rs2, rs1, funct3, imm[4:0], opcode. -/
def packS (imm : BitVec 12) (rs2 rs1 : Reg) (f3 : BitVec 3) (op : BitVec 7) : InstrWord :=
  imm.extractLsb' 5 7 ++ regField rs2 ++ regField rs1 ++ f3 ++ imm.extractLsb' 0 5 ++ op

/-- B: imm[12], imm[10:5], rs2, rs1, funct3, imm[4:1], imm[11], opcode; imm[0] has no place. -/
def packB (off : BitVec 13) (rs2 rs1 : Reg) (f3 : BitVec 3) (op : BitVec 7) : InstrWord :=
  off.extractLsb' 12 1 ++ off.extractLsb' 5 6 ++ regField rs2 ++ regField rs1 ++ f3 ++ off.extractLsb' 1 4 ++ off.extractLsb' 11 1 ++ op

/-- U: imm[31:12], rd, opcode. -/
def packU (imm20 : BitVec 20) (rd : Reg) (op : BitVec 7) : InstrWord :=
  imm20 ++ regField rd ++ op

/-- J: imm[20], imm[10:1], imm[11], imm[19:12], rd, opcode; imm[0] has no place. -/
def packJ (off : BitVec 21) (rd : Reg) (op : BitVec 7) : InstrWord :=
  off.extractLsb' 20 1 ++ off.extractLsb' 1 10 ++ off.extractLsb' 11 1 ++ off.extractLsb' 12 8 ++ regField rd ++ op

/-- The word of an instruction, with the values of R90's table. On an ill-formed one (an odd offset) the offset's bit 0 is lost. -/
def encode : Instr → InstrWord
  | .lb rd rs1 imm => packI imm rs1 0b000#3 rd 0x03#7
  | .lh rd rs1 imm => packI imm rs1 0b001#3 rd 0x03#7
  | .lw rd rs1 imm => packI imm rs1 0b010#3 rd 0x03#7
  | .ld rd rs1 imm => packI imm rs1 0b011#3 rd 0x03#7
  | .lbu rd rs1 imm => packI imm rs1 0b100#3 rd 0x03#7
  | .lhu rd rs1 imm => packI imm rs1 0b101#3 rd 0x03#7
  | .lwu rd rs1 imm => packI imm rs1 0b110#3 rd 0x03#7
  | .addi rd rs1 imm => packI imm rs1 0b000#3 rd 0x13#7
  | .slli rd rs1 shamt => packShift64 0b000000#6 shamt rs1 0b001#3 rd 0x13#7
  | .slti rd rs1 imm => packI imm rs1 0b010#3 rd 0x13#7
  | .sltiu rd rs1 imm => packI imm rs1 0b011#3 rd 0x13#7
  | .xori rd rs1 imm => packI imm rs1 0b100#3 rd 0x13#7
  | .srli rd rs1 shamt => packShift64 0b000000#6 shamt rs1 0b101#3 rd 0x13#7
  | .srai rd rs1 shamt => packShift64 0b010000#6 shamt rs1 0b101#3 rd 0x13#7
  | .ori rd rs1 imm => packI imm rs1 0b110#3 rd 0x13#7
  | .andi rd rs1 imm => packI imm rs1 0b111#3 rd 0x13#7
  | .auipc rd imm20 => packU imm20 rd 0x17#7
  | .addiw rd rs1 imm => packI imm rs1 0b000#3 rd 0x1b#7
  | .slliw rd rs1 shamt => packShift32 0b0000000#7 shamt rs1 0b001#3 rd 0x1b#7
  | .srliw rd rs1 shamt => packShift32 0b0000000#7 shamt rs1 0b101#3 rd 0x1b#7
  | .sraiw rd rs1 shamt => packShift32 0b0100000#7 shamt rs1 0b101#3 rd 0x1b#7
  | .sb rs2 rs1 imm => packS imm rs2 rs1 0b000#3 0x23#7
  | .sh rs2 rs1 imm => packS imm rs2 rs1 0b001#3 0x23#7
  | .sw rs2 rs1 imm => packS imm rs2 rs1 0b010#3 0x23#7
  | .sd rs2 rs1 imm => packS imm rs2 rs1 0b011#3 0x23#7
  | .add rd rs1 rs2 => packR 0b0000000#7 rs2 rs1 0b000#3 rd 0x33#7
  | .mul rd rs1 rs2 => packR 0b0000001#7 rs2 rs1 0b000#3 rd 0x33#7
  | .sub rd rs1 rs2 => packR 0b0100000#7 rs2 rs1 0b000#3 rd 0x33#7
  | .sll rd rs1 rs2 => packR 0b0000000#7 rs2 rs1 0b001#3 rd 0x33#7
  | .slt rd rs1 rs2 => packR 0b0000000#7 rs2 rs1 0b010#3 rd 0x33#7
  | .sltu rd rs1 rs2 => packR 0b0000000#7 rs2 rs1 0b011#3 rd 0x33#7
  | .xor rd rs1 rs2 => packR 0b0000000#7 rs2 rs1 0b100#3 rd 0x33#7
  | .srl rd rs1 rs2 => packR 0b0000000#7 rs2 rs1 0b101#3 rd 0x33#7
  | .sra rd rs1 rs2 => packR 0b0100000#7 rs2 rs1 0b101#3 rd 0x33#7
  | .or rd rs1 rs2 => packR 0b0000000#7 rs2 rs1 0b110#3 rd 0x33#7
  | .and rd rs1 rs2 => packR 0b0000000#7 rs2 rs1 0b111#3 rd 0x33#7
  | .lui rd imm20 => packU imm20 rd 0x37#7
  | .addw rd rs1 rs2 => packR 0b0000000#7 rs2 rs1 0b000#3 rd 0x3b#7
  | .subw rd rs1 rs2 => packR 0b0100000#7 rs2 rs1 0b000#3 rd 0x3b#7
  | .sllw rd rs1 rs2 => packR 0b0000000#7 rs2 rs1 0b001#3 rd 0x3b#7
  | .srlw rd rs1 rs2 => packR 0b0000000#7 rs2 rs1 0b101#3 rd 0x3b#7
  | .sraw rd rs1 rs2 => packR 0b0100000#7 rs2 rs1 0b101#3 rd 0x3b#7
  | .beq rs1 rs2 off => packB off rs2 rs1 0b000#3 0x63#7
  | .bne rs1 rs2 off => packB off rs2 rs1 0b001#3 0x63#7
  | .blt rs1 rs2 off => packB off rs2 rs1 0b100#3 0x63#7
  | .bge rs1 rs2 off => packB off rs2 rs1 0b101#3 0x63#7
  | .bltu rs1 rs2 off => packB off rs2 rs1 0b110#3 0x63#7
  | .bgeu rs1 rs2 off => packB off rs2 rs1 0b111#3 0x63#7
  | .jalr rd rs1 imm => packI imm rs1 0b000#3 rd 0x67#7
  | .jal rd off => packJ off rd 0x6f#7

/-! ## The opcode table of spec/opcode_table.json, as it numbers and spells its rows -/

/-- A row: the words it stands for are those with `w &&& mask = pattern`. -/
structure OpcodeRow where
  mnemonic : String
  mask : InstrWord
  pattern : InstrWord
  deriving DecidableEq, Repr

/-- The word has the row's fixed bits. -/
abbrev OpcodeRow.Matches (r : OpcodeRow) (w : InstrWord) : Prop := w &&& r.mask = r.pattern

/-- The rows of LOAD. -/
def rowsLoad : List OpcodeRow := [
  ⟨"LB", 0x0000707f#32, 0x00000003#32⟩,
  ⟨"LH", 0x0000707f#32, 0x00001003#32⟩,
  ⟨"LW", 0x0000707f#32, 0x00002003#32⟩,
  ⟨"LD", 0x0000707f#32, 0x00003003#32⟩,
  ⟨"LBU", 0x0000707f#32, 0x00004003#32⟩,
  ⟨"LHU", 0x0000707f#32, 0x00005003#32⟩,
  ⟨"LWU", 0x0000707f#32, 0x00006003#32⟩]

/-- The rows of OP-IMM. -/
def rowsOpImm : List OpcodeRow := [
  ⟨"ADDI", 0x0000707f#32, 0x00000013#32⟩,
  ⟨"SLLI", 0xfc00707f#32, 0x00001013#32⟩,
  ⟨"SLTI", 0x0000707f#32, 0x00002013#32⟩,
  ⟨"SLTIU", 0x0000707f#32, 0x00003013#32⟩,
  ⟨"XORI", 0x0000707f#32, 0x00004013#32⟩,
  ⟨"SRLI", 0xfc00707f#32, 0x00005013#32⟩,
  ⟨"SRAI", 0xfc00707f#32, 0x40005013#32⟩,
  ⟨"ORI", 0x0000707f#32, 0x00006013#32⟩,
  ⟨"ANDI", 0x0000707f#32, 0x00007013#32⟩]

/-- The rows of AUIPC and LUI. -/
def rowsUpper : List OpcodeRow := [
  ⟨"AUIPC", 0x0000007f#32, 0x00000017#32⟩,
  ⟨"LUI", 0x0000007f#32, 0x00000037#32⟩]

/-- The rows of OP-IMM-32. -/
def rowsOpImm32 : List OpcodeRow := [
  ⟨"ADDIW", 0x0000707f#32, 0x0000001b#32⟩,
  ⟨"SLLIW", 0xfe00707f#32, 0x0000101b#32⟩,
  ⟨"SRLIW", 0xfe00707f#32, 0x0000501b#32⟩,
  ⟨"SRAIW", 0xfe00707f#32, 0x4000501b#32⟩]

/-- The rows of STORE. -/
def rowsStore : List OpcodeRow := [
  ⟨"SB", 0x0000707f#32, 0x00000023#32⟩,
  ⟨"SH", 0x0000707f#32, 0x00001023#32⟩,
  ⟨"SW", 0x0000707f#32, 0x00002023#32⟩,
  ⟨"SD", 0x0000707f#32, 0x00003023#32⟩]

/-- The rows of OP. -/
def rowsOp : List OpcodeRow := [
  ⟨"ADD", 0xfe00707f#32, 0x00000033#32⟩,
  ⟨"MUL", 0xfe00707f#32, 0x02000033#32⟩,
  ⟨"SUB", 0xfe00707f#32, 0x40000033#32⟩,
  ⟨"SLL", 0xfe00707f#32, 0x00001033#32⟩,
  ⟨"SLT", 0xfe00707f#32, 0x00002033#32⟩,
  ⟨"SLTU", 0xfe00707f#32, 0x00003033#32⟩,
  ⟨"XOR", 0xfe00707f#32, 0x00004033#32⟩,
  ⟨"SRL", 0xfe00707f#32, 0x00005033#32⟩,
  ⟨"SRA", 0xfe00707f#32, 0x40005033#32⟩,
  ⟨"OR", 0xfe00707f#32, 0x00006033#32⟩,
  ⟨"AND", 0xfe00707f#32, 0x00007033#32⟩]

/-- The rows of OP-32. -/
def rowsOp32 : List OpcodeRow := [
  ⟨"ADDW", 0xfe00707f#32, 0x0000003b#32⟩,
  ⟨"SUBW", 0xfe00707f#32, 0x4000003b#32⟩,
  ⟨"SLLW", 0xfe00707f#32, 0x0000103b#32⟩,
  ⟨"SRLW", 0xfe00707f#32, 0x0000503b#32⟩,
  ⟨"SRAW", 0xfe00707f#32, 0x4000503b#32⟩]

/-- The rows of BRANCH, JALR, JAL. -/
def rowsControl : List OpcodeRow := [
  ⟨"BEQ", 0x0000707f#32, 0x00000063#32⟩,
  ⟨"BNE", 0x0000707f#32, 0x00001063#32⟩,
  ⟨"BLT", 0x0000707f#32, 0x00004063#32⟩,
  ⟨"BGE", 0x0000707f#32, 0x00005063#32⟩,
  ⟨"BLTU", 0x0000707f#32, 0x00006063#32⟩,
  ⟨"BGEU", 0x0000707f#32, 0x00007063#32⟩,
  ⟨"JALR", 0x0000707f#32, 0x00000067#32⟩,
  ⟨"JAL", 0x0000007f#32, 0x0000006f#32⟩]

/-- All 50 rows (R90). -/
def opcodeTable : List OpcodeRow :=
  rowsLoad ++ rowsOpImm ++ rowsUpper ++ rowsOpImm32 ++ rowsStore ++ rowsOp ++ rowsOp32 ++ rowsControl

end Sys2Proof
end

