-- ==== Sys2Proof/Config.lean ====
section
/-! DEFINITION. What one build of the hardware fixes (spec/00_scope.md R9): the RAM window. Every claim is stated for every configuration. -/

namespace Sys2Proof

/-- The configuration parameters of R9 that decide a step. `INIT_MEM` is an argument of `initialize` (log entry 3) and `DRIVER_STOP`
belongs to the driver, outside the block (log entry 7). -/
structure Config where
  /-- `MEM_BASE`, the address of the first RAM byte; OPEN in the spec (92_eei_decisions.md D1). -/
  memBase : Word
  /-- `MEM_SIZE`, the RAM capacity in bytes (D2). -/
  memSize : Nat
  deriving DecidableEq, Repr

/-- The constraints R9 puts on the parameters: `MEM_SIZE >= 4` and `MEM_BASE + MEM_SIZE < 2^64`. -/
abbrev Config.Valid (c : Config) : Prop :=
  4 ≤ c.memSize ∧ c.memBase.toNat + c.memSize < 2 ^ 64

end Sys2Proof
end

