-- ==== Sys2Proof/Machine/Reference.lean ====
section
/-! DEFINITION. The values the machine starts from: the configuration of `State.reset`, the registers after initialisation
(spec/10_state.md R32), and what a RAM byte that nothing has written reads as. -/

namespace Sys2Proof.Machine

/-- The configuration of `State.reset`. `MEM_SIZE` is the spec's reference value (R9, D2). PRESUMED: the spec leaves `MEM_BASE` open
(D1); 0x8000_0000 is the base D1 names as a common choice of such emulators (log entry 1). No statement rests on it. -/
def referenceConfig : Config where
  memBase := 0x80000000#64
  memSize := 134217728

/-- `MEM_BASE + MEM_SIZE`, the address one past the last RAM byte and the stack pointer after initialisation (R231, R233). -/
def ramEnd (c : Config) : Word := c.memBase + BitVec.ofNat 64 c.memSize

/-- The register file at creation: "register file zeroed" (R230). -/
def zeroRegs : Vector Word 32 := Vector.replicate 32 0#64

/-- The register file after `initialize`: all zero but `x2 = MEM_BASE + MEM_SIZE` (R32, R231). -/
def initRegs (c : Config) : Vector Word 32 := zeroRegs.set 2 (ramEnd c)

/-- What an address that memory does not list reads as. DESIGN CHOICE (log entry 3): the spec leaves such bytes open as `INIT_MEM` (D16);
`initialize` takes any `INIT_MEM` as cells of memory. -/
def unlistedByte (_a : Nat) : Byte := 0#8

end Sys2Proof.Machine
end

