-- ==== Sys2Proof/Machine/State.lean ====
section
/-! DEFINITION. The state of the block (spec/10_state.md R20 to R33): registers, pc, RAM, run status, and the configuration it runs under;
the faults of spec/60_exceptions.md R200; the refusals; the state at creation and after reset. -/

namespace Sys2Proof.Machine

/-- The three faults, each with its information (R200, D18). A cycle that raises one ends in a next state whose status is `faulted` with
it; `step` answers `fault` with it when asked for a further cycle of that state (R31, R110; log entry 4). -/
inductive Fault where
  /-- An access of `n` bytes at `addr` that is not wholly inside RAM (R201). Raised by every load, every store and the fetch. Safe: it is
  the spec's own stop. -/
  | outOfBounds (addr : Word) (n : Nat)
  /-- A bus width other than 8, 16, 32, 64 (R202). Raised by the bus interface only; no instruction and no fetch can raise it (R45). Safe. -/
  | unsupportedWidth (width : BitVec 8)
  /-- A word that is no row of R90's table (R203). Raised by `execute` at decode, before any effect. Safe: it is the spec's own stop. -/
  | unimplementedInstruction (word : InstrWord)
  deriving DecidableEq, Repr

/-- The run status (R31). -/
inductive RunStatus where
  | running
  | faulted (f : Fault)
  deriving DecidableEq, Repr

/-- What the model declines. -/
inductive Refusal where
  /-- An instruction that has no meaning yet. Raised by an arm of `exec`; no arm of this model does. Safe. -/
  | notModelled (mnemonic : String)
  /-- `initialize` with an image of `len` bytes, more than `MEM_SIZE`: refused, as R231 says (D16). Raised by `initialize` only, never by
  `step`. Safe. -/
  | imageTooLong (len : Nat)
  deriving DecidableEq, Repr

/-- RAM contents: cells by address, in the canonical form `Memory.wf`; an address that is not listed reads `unlistedByte` (log entry 3). -/
abbrev Memory := List Host.Cell

/-- The machine state: R33's record and the configuration (R9), which no step changes (log entry 2). There are no flags, control
registers, accumulators, reservations or modes (R26 to R28, R30, R211). -/
structure State where
  /-- `x0` to `x31` (R20). Read through `State.reg`, written through `State.setReg`: x0 is hardwired there (R21). -/
  x : Vector Word 32
  /-- The program counter (R23): between cycles the address of the next instruction; during execute `P + 4` (R101). -/
  pc : Word
  /-- The RAM bytes (R29), byte `mem[k]` of the spec at address `MEM_BASE + k`. -/
  mem : Memory
  /-- `Running` or `Faulted(f)` (R31). -/
  status : RunStatus
  /-- `MEM_BASE` and `MEM_SIZE` (R9). -/
  cfg : Config
  deriving DecidableEq, Repr

/-- The block as created, before `initialize`: registers zeroed, pc at `MEM_BASE`, RAM of contents `initMem` (R230, R32). -/
def State.created (c : Config) (initMem : Memory) : State where
  x := zeroRegs
  pc := c.memBase
  mem := initMem
  status := .running
  cfg := c

/-- The block after `initialize`, with RAM contents `m`: R32's table. -/
def State.initialized (c : Config) (m : Memory) : State where
  x := initRegs c
  pc := c.memBase
  mem := m
  status := .running
  cfg := c

/-- The machine right after reset: R32 for the reference configuration, with no image and nothing listed in memory (log entries 1, 3, 6). -/
def State.reset : State := State.initialized referenceConfig []

end Sys2Proof.Machine
end

