-- ==== Sys2Proof/Machine/Ops.lean ====
section
/-! DEFINITION. The named operations every meaning is built from: registers with x0 hardwired (spec/10_state.md R20, R21), RAM bytes in
canonical form, the bus (spec/20_memory.md R40 to R48), and taking a fault (spec/60_exceptions.md R200 to R207). There is no return
from a fault: R208 gives the hardware none, and only `initialize` clears the status. -/

namespace Sys2Proof.Machine

/-! ## Registers, pc, status -/

/-- `x[r]`: reads 0 when r = 0 (R13, R21). -/
def State.reg (s : State) (r : Reg) : Word := if r = 0 then 0#64 else s.x[r.val]

/-- `x[r] <- v`: discarded when r = 0 (R13, R21). -/
def State.setReg (s : State) (r : Reg) (v : Word) : State :=
  { s with x := if r = 0 then s.x else s.x.set r.val v }

/-- `pc <- target` (R15). -/
def State.setPc (s : State) (target : Word) : State := { s with pc := target }

/-- RAM contents replaced. -/
def State.setMem (s : State) (m : Memory) : State := { s with mem := m }

/-- Run status replaced. -/
def State.setStatus (s : State) (st : RunStatus) : State := { s with status := st }

/-! ## RAM bytes -/

/-- The canonical form: addresses strictly rising, no byte equal to what an unlisted address reads as. -/
abbrev Memory.wf (m : Memory) : Prop :=
  m.Pairwise (fun a b => a.1 < b.1) ∧ ∀ e ∈ m, e.2 ≠ unlistedByte e.1

/-- The byte at an address. -/
def Memory.read : Memory → Nat → Byte
  | [], a => unlistedByte a
  | (k, b) :: m, a => if k = a then b else Memory.read m a

/-- Memory without any cell at `a`. -/
def Memory.erase : Memory → Nat → Memory
  | [], _ => []
  | (k, b) :: m, a => if k = a then Memory.erase m a else (k, b) :: Memory.erase m a

/-- A cell put in front of the first cell with a higher address. -/
def Memory.insert : Memory → Nat → Byte → Memory
  | [], a, v => [(a, v)]
  | (k, b) :: m, a, v => if a < k then (a, v) :: (k, b) :: m else (k, b) :: Memory.insert m a v

/-- One byte written, keeping the canonical form. -/
def Memory.write (m : Memory) (a : Nat) (v : Byte) : Memory :=
  if v = unlistedByte a then m.erase a else (m.erase a).insert a v

/-- `n` bytes from `a` on, assembled little-endian and zero-extended (R42). -/
def Memory.readBytes (m : Memory) : Nat → Nat → Word
  | _, 0 => 0#64
  | a, n + 1 => (Memory.readBytes m (a + 1) n <<< 8) ||| (m.read a).setWidth 64

/-- The low `n` bytes of `v` written little-endian from `a` on: byte k gets `v[8k+7:8k]` (R43). -/
def Memory.writeBytes (m : Memory) : Nat → Nat → Word → Memory
  | _, 0, _ => m
  | a, n + 1, v => Memory.writeBytes (m.write a (v.setWidth 8)) (a + 1) n (v >>> 8)

/-- The bytes of an image laid down from `a` on (R231). -/
def Memory.writeImage (m : Memory) : Nat → List Byte → Memory
  | _, [] => m
  | a, b :: bs => Memory.writeImage (m.write a b) (a + 1) bs

/-- The byte of RAM at an address, as a load would see it. -/
def State.readByte (s : State) (a : Nat) : Byte := s.mem.read a

/-! ## The bus (R41) -/

/-- An access of `n` bytes at `addr` lies wholly inside RAM, compared on unbounded integers (R44, D12). -/
abbrev InBounds (c : Config) (addr : Word) (n : Nat) : Prop :=
  c.memBase.toNat ≤ addr.toNat ∧ addr.toNat + n ≤ c.memBase.toNat + c.memSize

/-- `n = width/8` for the four widths the bus supports (R42). -/
def widthBytes (width : BitVec 8) : Option Nat :=
  if width = 8#8 then some 1
  else if width = 16#8 then some 2
  else if width = 32#8 then some 4
  else if width = 64#8 then some 8
  else none

/-- `load(addr, width)`: width check, bounds check, then the bytes, little-endian and zero-extended (R42). -/
def busLoad (s : State) (addr : Word) (width : BitVec 8) : Except Fault Word :=
  match widthBytes width with
  | none => .error (.unsupportedWidth width)
  | some n =>
    if InBounds s.cfg addr n then .ok (s.mem.readBytes addr.toNat n) else .error (.outOfBounds addr n)

/-- `store(addr, width, value)`: the same checks; then the low `width` bits of `value`, little-endian. A fault writes no byte (R43, D21). -/
def busStore (s : State) (addr : Word) (width : BitVec 8) (value : Word) : Except Fault State :=
  match widthBytes width with
  | none => .error (.unsupportedWidth width)
  | some n =>
    if InBounds s.cfg addr n then .ok (s.setMem (s.mem.writeBytes addr.toNat n value))
    else .error (.outOfBounds addr n)

/-! ## Ends of an instruction -/

/-- Taking a fault: the status becomes `Faulted(f)` and nothing else changes; no register is saved, control goes nowhere, the pc keeps
what it holds (`P + 4` in execute, `P` in fetch) (R104, R205, R207, D19). -/
def takeFault (f : Fault) (s : State) : Host.Outcome State Fault Refusal :=
  .next (s.setStatus (.faulted f))

/-- The end of an instruction whose only effect is `x[rd] <- v`. -/
def writeResult (rd : Reg) (v : Word) (s : State) : Host.Outcome State Fault Refusal :=
  .next (s.setReg rd v)

/-- A load: `x[rd] <- ext(MemRead(addr, width/8))`, or the bus's fault with no register written (R120). -/
def loadInto (rd : Reg) (addr : Word) (width : BitVec 8) (ext : Word → Word) (s : State) :
    Host.Outcome State Fault Refusal :=
  match busLoad s addr width with
  | .error f => takeFault f s
  | .ok v => .next (s.setReg rd (ext v))

/-- A store: `MemWrite(addr, width/8, value)`, or the bus's fault with no byte written (R155). -/
def storeFrom (addr : Word) (width : BitVec 8) (value : Word) (s : State) : Host.Outcome State Fault Refusal :=
  match busStore s addr width value with
  | .error f => takeFault f s
  | .ok s' => .next s'

/-- A branch: to `target` when `taken`, else the pc stays `P + 4` (R180). -/
def branchTo (taken : Bool) (target : Word) (s : State) : Host.Outcome State Fault Refusal :=
  .next (if taken then s.setPc target else s)

/-- A jump: `x[rd] <- link; pc <- target` (R187, R188). Both values are computed by the caller from the state before (R105). -/
def jumpAndLink (rd : Reg) (link target : Word) (s : State) : Host.Outcome State Fault Refusal :=
  .next ((s.setReg rd link).setPc target)

end Sys2Proof.Machine
end

