-- ==== Sys2Proof/Machine/Flags.lean ====
section
/-! DEFINITION. The hardware has no flags and no condition codes (spec/10_state.md R26). What other machines keep in flags stands here: the
comparisons, whose results go to a general register or decide a branch (spec/00_scope.md R11). -/

namespace Sys2Proof.Machine

/-- `a <s b`, two's complement (R11). -/
def ltSigned (a b : Word) : Bool := a.slt b

/-- `a <u b` (R11). -/
def ltUnsigned (a b : Word) : Bool := a.ult b

/-- `a >=s b` (R11). -/
def geSigned (a b : Word) : Bool := !ltSigned a b

/-- `a >=u b` (R11). -/
def geUnsigned (a b : Word) : Bool := !ltUnsigned a b

/-- `cond ? 1 : 0`, as the set-if-less-than instructions write it (R133). -/
def boolWord (cond : Bool) : Word := if cond then 1#64 else 0#64

end Sys2Proof.Machine
end

