-- ==== Sys2Proof/Machine/Operands.lean ====
section
/-! DEFINITION. The operand forms: the five immediates (spec/30_encoding.md R75 to R79), the shift amounts (R80, R160), the effective
address (spec/41_load.md R120, spec/44_store.md R155), the instruction's own address (spec/40_engine.md R101), and the extensions of
spec/00_scope.md R12. -/

namespace Sys2Proof.Machine

/-- `sext_N(v)`: the low N bits, sign-extended to 64 (R12). -/
def sext (n : Nat) (v : Word) : Word := (v.setWidth n).signExtend 64

/-- `zext_N(v)`: the low N bits, zero-extended to 64 (R12). -/
def zext (n : Nat) (v : Word) : Word := (v.setWidth n).setWidth 64

/-- `immI = sext_12(w[31:20])` (R75). -/
def immI (imm : BitVec 12) : Word := imm.signExtend 64

/-- `immS`, sign-extended from 12 bits (R76). -/
def immS (imm : BitVec 12) : Word := imm.signExtend 64

/-- `immB`, sign-extended from 13 bits (R77). -/
def immB (off : BitVec 13) : Word := off.signExtend 64

/-- `immU`: the 20 bits followed by twelve zeros, sign-extended from 32 bits (R78). -/
def immU (imm20 : BitVec 20) : Word := (imm20 ++ 0#12).signExtend 64

/-- `immJ`, sign-extended from 21 bits (R79). -/
def immJ (off : BitVec 21) : Word := off.signExtend 64

/-- The shift amount of the 64-bit immediate shifts, unsigned (R80). -/
def shamt6 (shamt : BitVec 6) : Nat := shamt.toNat

/-- The shift amount of the W immediate shifts, unsigned (R80). -/
def shamt5 (shamt : BitVec 5) : Nat := shamt.toNat

/-- `x[rs2][5:0]`, the amount of the 64-bit register shifts (R160, D11). -/
def regShamt6 (v : Word) : Nat := (v.extractLsb' 0 6).toNat

/-- `x[rs2][4:0]`, the amount of the W register shifts (R160, D11). -/
def regShamt5 (v : Word) : Nat := (v.extractLsb' 0 5).toNat

/-- `P = pc - 4 mod 2^64`, the address of the instruction being executed (R101). -/
def instrAddr (s : State) : Word := s.pc - 4#64

/-- `P + 4`, the link value of JAL and JALR (R187, R188, D6). -/
def linkAddr (s : State) : Word := instrAddr s + 4#64

/-- A load's effective address `x[rs1] + immI mod 2^64` (R120, D10). -/
def loadAddr (s : State) (rs1 : Reg) (imm : BitVec 12) : Word := s.reg rs1 + immI imm

/-- A store's effective address `x[rs1] + immS mod 2^64` (R155, D10). -/
def storeAddr (s : State) (rs1 : Reg) (imm : BitVec 12) : Word := s.reg rs1 + immS imm

/-- A branch target `P + immB` (R180). -/
def branchTarget (s : State) (off : BitVec 13) : Word := instrAddr s + immB off

end Sys2Proof.Machine
end

