-- ==== Sys2Proof/Machine/Control.lean ====
section
/-! DEFINITION. The branches and jumps (spec/46_control_transfer.md R180 to R188). -/

namespace Sys2Proof.Machine

/-- branch if equal (R181). -/
def execBeq (rs1 rs2 : Reg) (off : BitVec 13) (s : State) : Host.Outcome State Fault Refusal :=
  branchTo (s.reg rs1 == s.reg rs2) (branchTarget s off) s

/-- branch if not equal (R182). -/
def execBne (rs1 rs2 : Reg) (off : BitVec 13) (s : State) : Host.Outcome State Fault Refusal :=
  branchTo (s.reg rs1 != s.reg rs2) (branchTarget s off) s

/-- branch if less than, signed (R183). -/
def execBlt (rs1 rs2 : Reg) (off : BitVec 13) (s : State) : Host.Outcome State Fault Refusal :=
  branchTo (ltSigned (s.reg rs1) (s.reg rs2)) (branchTarget s off) s

/-- branch if greater than or equal, signed (R184). -/
def execBge (rs1 rs2 : Reg) (off : BitVec 13) (s : State) : Host.Outcome State Fault Refusal :=
  branchTo (geSigned (s.reg rs1) (s.reg rs2)) (branchTarget s off) s

/-- branch if less than, unsigned (R185). -/
def execBltu (rs1 rs2 : Reg) (off : BitVec 13) (s : State) : Host.Outcome State Fault Refusal :=
  branchTo (ltUnsigned (s.reg rs1) (s.reg rs2)) (branchTarget s off) s

/-- branch if greater than or equal, unsigned (R186). -/
def execBgeu (rs1 rs2 : Reg) (off : BitVec 13) (s : State) : Host.Outcome State Fault Refusal :=
  branchTo (geUnsigned (s.reg rs1) (s.reg rs2)) (branchTarget s off) s

/-- jump and link register: the target is the old `x[rs1] + immI` with no bit cleared (D7, D8) (R187). -/
def execJalr (rd rs1 : Reg) (imm : BitVec 12) (s : State) : Host.Outcome State Fault Refusal :=
  jumpAndLink rd (linkAddr s) (s.reg rs1 + immI imm) s

/-- jump and link (R188). -/
def execJal (rd : Reg) (off : BitVec 21) (s : State) : Host.Outcome State Fault Refusal :=
  jumpAndLink rd (linkAddr s) (instrAddr s + immJ off) s

end Sys2Proof.Machine
end

