-- ==== Sys2Proof/Machine/Load.lean ====
section
/-! DEFINITION. The loads (spec/41_load.md R120 to R127). -/

namespace Sys2Proof.Machine

/-- load byte, sign-extended (R121). -/
def execLb (rd rs1 : Reg) (imm : BitVec 12) (s : State) : Host.Outcome State Fault Refusal :=
  loadInto rd (loadAddr s rs1 imm) 8#8 (sext 8) s

/-- load halfword, sign-extended (R122). -/
def execLh (rd rs1 : Reg) (imm : BitVec 12) (s : State) : Host.Outcome State Fault Refusal :=
  loadInto rd (loadAddr s rs1 imm) 16#8 (sext 16) s

/-- load word, sign-extended (R123). -/
def execLw (rd rs1 : Reg) (imm : BitVec 12) (s : State) : Host.Outcome State Fault Refusal :=
  loadInto rd (loadAddr s rs1 imm) 32#8 (sext 32) s

/-- load doubleword (R124). -/
def execLd (rd rs1 : Reg) (imm : BitVec 12) (s : State) : Host.Outcome State Fault Refusal :=
  loadInto rd (loadAddr s rs1 imm) 64#8 id s

/-- load byte, zero-extended (R125). -/
def execLbu (rd rs1 : Reg) (imm : BitVec 12) (s : State) : Host.Outcome State Fault Refusal :=
  loadInto rd (loadAddr s rs1 imm) 8#8 (zext 8) s

/-- load halfword, zero-extended (R126). -/
def execLhu (rd rs1 : Reg) (imm : BitVec 12) (s : State) : Host.Outcome State Fault Refusal :=
  loadInto rd (loadAddr s rs1 imm) 16#8 (zext 16) s

/-- load word, zero-extended (R127). -/
def execLwu (rd rs1 : Reg) (imm : BitVec 12) (s : State) : Host.Outcome State Fault Refusal :=
  loadInto rd (loadAddr s rs1 imm) 32#8 (zext 32) s

end Sys2Proof.Machine
end

