-- ==== Sys2Proof/Machine/Alu.lean ====
section
/-! DEFINITION. The arithmetic the register and the immediate forms share: 64-bit shifts, and the W operations, which compute on the low 32
bits and sign-extend a 32-bit result (spec/40_engine.md R107, R108). -/

namespace Sys2Proof.Machine

/-- The low 32 bits, `v[31:0]`. -/
def lowWord (v : Word) : BitVec 32 := v.setWidth 32

/-- `sext_32` of a 32-bit result (R108). -/
def wResult (v : BitVec 32) : Word := v.signExtend 64

/-- `v << n`, zeros entering at bit 0 (R11). -/
def shl (v : Word) (n : Nat) : Word := v <<< n

/-- `v >>u n`, zeros entering at bit 63 (R11); a shift, never an addition (R109). -/
def shrLogical (v : Word) (n : Nat) : Word := v >>> n

/-- `v >>s n`, copies of bit 63 entering (R11). -/
def shrArith (v : Word) (n : Nat) : Word := v.sshiftRight n

/-- `sext_32((a + b)[31:0])` (R140, R172). -/
def addw (a b : Word) : Word := wResult (lowWord (a + b))

/-- `sext_32((a - b)[31:0])` (R173). -/
def subw (a b : Word) : Word := wResult (lowWord (a - b))

/-- `sext_32((v[31:0] << n)[31:0])` (R141, R174). -/
def shlw (v : Word) (n : Nat) : Word := wResult (lowWord v <<< n)

/-- `sext_32(v[31:0] >>u n)` (R142, R175). -/
def shrLogicalW (v : Word) (n : Nat) : Word := wResult (lowWord v >>> n)

/-- `sext_32(v[31:0] >>s n)`, replicating bit 31 (R143, R176). -/
def shrArithW (v : Word) (n : Nat) : Word := wResult ((lowWord v).sshiftRight n)

end Sys2Proof.Machine
end

