-- ==== Sys2Proof/Machine/Op.lean ====
section
/-! DEFINITION. The register-register operations, OP and OP-32 (spec/45_op.md R160 to R176). -/

namespace Sys2Proof.Machine

/-- add, mod 2^64 (R161). -/
def execAdd (rd rs1 rs2 : Reg) (s : State) : Host.Outcome State Fault Refusal :=
  writeResult rd (s.reg rs1 + s.reg rs2) s

/-- multiply, the low 64 bits of the product (R162). -/
def execMul (rd rs1 rs2 : Reg) (s : State) : Host.Outcome State Fault Refusal :=
  writeResult rd (s.reg rs1 * s.reg rs2) s

/-- subtract, mod 2^64 (R163). -/
def execSub (rd rs1 rs2 : Reg) (s : State) : Host.Outcome State Fault Refusal :=
  writeResult rd (s.reg rs1 - s.reg rs2) s

/-- shift left logical (R164). -/
def execSll (rd rs1 rs2 : Reg) (s : State) : Host.Outcome State Fault Refusal :=
  writeResult rd (shl (s.reg rs1) (regShamt6 (s.reg rs2))) s

/-- set if less than, signed (R165). -/
def execSlt (rd rs1 rs2 : Reg) (s : State) : Host.Outcome State Fault Refusal :=
  writeResult rd (boolWord (ltSigned (s.reg rs1) (s.reg rs2))) s

/-- set if less than, unsigned (R166). -/
def execSltu (rd rs1 rs2 : Reg) (s : State) : Host.Outcome State Fault Refusal :=
  writeResult rd (boolWord (ltUnsigned (s.reg rs1) (s.reg rs2))) s

/-- exclusive or (R167). -/
def execXor (rd rs1 rs2 : Reg) (s : State) : Host.Outcome State Fault Refusal :=
  writeResult rd (s.reg rs1 ^^^ s.reg rs2) s

/-- shift right logical (R168). -/
def execSrl (rd rs1 rs2 : Reg) (s : State) : Host.Outcome State Fault Refusal :=
  writeResult rd (shrLogical (s.reg rs1) (regShamt6 (s.reg rs2))) s

/-- shift right arithmetic (R169). -/
def execSra (rd rs1 rs2 : Reg) (s : State) : Host.Outcome State Fault Refusal :=
  writeResult rd (shrArith (s.reg rs1) (regShamt6 (s.reg rs2))) s

/-- or (R170). -/
def execOr (rd rs1 rs2 : Reg) (s : State) : Host.Outcome State Fault Refusal :=
  writeResult rd (s.reg rs1 ||| s.reg rs2) s

/-- and (R171). -/
def execAnd (rd rs1 rs2 : Reg) (s : State) : Host.Outcome State Fault Refusal :=
  writeResult rd (s.reg rs1 &&& s.reg rs2) s

/-- add, word (R172). -/
def execAddw (rd rs1 rs2 : Reg) (s : State) : Host.Outcome State Fault Refusal :=
  writeResult rd (addw (s.reg rs1) (s.reg rs2)) s

/-- subtract, word (R173). -/
def execSubw (rd rs1 rs2 : Reg) (s : State) : Host.Outcome State Fault Refusal :=
  writeResult rd (subw (s.reg rs1) (s.reg rs2)) s

/-- shift left logical, word (R174). -/
def execSllw (rd rs1 rs2 : Reg) (s : State) : Host.Outcome State Fault Refusal :=
  writeResult rd (shlw (s.reg rs1) (regShamt5 (s.reg rs2))) s

/-- shift right logical, word (R175). -/
def execSrlw (rd rs1 rs2 : Reg) (s : State) : Host.Outcome State Fault Refusal :=
  writeResult rd (shrLogicalW (s.reg rs1) (regShamt5 (s.reg rs2))) s

/-- shift right arithmetic, word (R176). -/
def execSraw (rd rs1 rs2 : Reg) (s : State) : Host.Outcome State Fault Refusal :=
  writeResult rd (shrArithW (s.reg rs1) (regShamt5 (s.reg rs2))) s

end Sys2Proof.Machine
end

