-- ==== Sys2Proof/Machine/OpImm.lean ====
section
/-! DEFINITION. The register-immediate operations, OP-IMM and OP-IMM-32 (spec/42_op_imm.md R130 to R143). -/

namespace Sys2Proof.Machine

/-- add immediate, mod 2^64 (R131). -/
def execAddi (rd rs1 : Reg) (imm : BitVec 12) (s : State) : Host.Outcome State Fault Refusal :=
  writeResult rd (s.reg rs1 + immI imm) s

/-- shift left logical by immediate (R132). -/
def execSlli (rd rs1 : Reg) (shamt : BitVec 6) (s : State) : Host.Outcome State Fault Refusal :=
  writeResult rd (shl (s.reg rs1) (shamt6 shamt)) s

/-- set if less than immediate, signed (R133). -/
def execSlti (rd rs1 : Reg) (imm : BitVec 12) (s : State) : Host.Outcome State Fault Refusal :=
  writeResult rd (boolWord (ltSigned (s.reg rs1) (immI imm))) s

/-- set if less than immediate: the sign-extended immediate compared unsigned (D23) (R134). -/
def execSltiu (rd rs1 : Reg) (imm : BitVec 12) (s : State) : Host.Outcome State Fault Refusal :=
  writeResult rd (boolWord (ltUnsigned (s.reg rs1) (immI imm))) s

/-- exclusive or with immediate (R135). -/
def execXori (rd rs1 : Reg) (imm : BitVec 12) (s : State) : Host.Outcome State Fault Refusal :=
  writeResult rd (s.reg rs1 ^^^ immI imm) s

/-- shift right logical by immediate (R136). -/
def execSrli (rd rs1 : Reg) (shamt : BitVec 6) (s : State) : Host.Outcome State Fault Refusal :=
  writeResult rd (shrLogical (s.reg rs1) (shamt6 shamt)) s

/-- shift right arithmetic by immediate (R137). -/
def execSrai (rd rs1 : Reg) (shamt : BitVec 6) (s : State) : Host.Outcome State Fault Refusal :=
  writeResult rd (shrArith (s.reg rs1) (shamt6 shamt)) s

/-- or with immediate (R138). -/
def execOri (rd rs1 : Reg) (imm : BitVec 12) (s : State) : Host.Outcome State Fault Refusal :=
  writeResult rd (s.reg rs1 ||| immI imm) s

/-- and with immediate (R139). -/
def execAndi (rd rs1 : Reg) (imm : BitVec 12) (s : State) : Host.Outcome State Fault Refusal :=
  writeResult rd (s.reg rs1 &&& immI imm) s

/-- add immediate, word (R140). -/
def execAddiw (rd rs1 : Reg) (imm : BitVec 12) (s : State) : Host.Outcome State Fault Refusal :=
  writeResult rd (addw (s.reg rs1) (immI imm)) s

/-- shift left logical by immediate, word (R141). -/
def execSlliw (rd rs1 : Reg) (shamt : BitVec 5) (s : State) : Host.Outcome State Fault Refusal :=
  writeResult rd (shlw (s.reg rs1) (shamt5 shamt)) s

/-- shift right logical by immediate, word (R142). -/
def execSrliw (rd rs1 : Reg) (shamt : BitVec 5) (s : State) : Host.Outcome State Fault Refusal :=
  writeResult rd (shrLogicalW (s.reg rs1) (shamt5 shamt)) s

/-- shift right arithmetic by immediate, word (R143). -/
def execSraiw (rd rs1 : Reg) (shamt : BitVec 5) (s : State) : Host.Outcome State Fault Refusal :=
  writeResult rd (shrArithW (s.reg rs1) (shamt5 shamt)) s

end Sys2Proof.Machine
end

