-- ==== Sys2Proof/Machine/Store.lean ====
section
/-! DEFINITION. The stores (spec/44_store.md R155 to R159). -/

namespace Sys2Proof.Machine

/-- store byte (R156). -/
def execSb (rs2 rs1 : Reg) (imm : BitVec 12) (s : State) : Host.Outcome State Fault Refusal :=
  storeFrom (storeAddr s rs1 imm) 8#8 (s.reg rs2) s

/-- store halfword (R157). -/
def execSh (rs2 rs1 : Reg) (imm : BitVec 12) (s : State) : Host.Outcome State Fault Refusal :=
  storeFrom (storeAddr s rs1 imm) 16#8 (s.reg rs2) s

/-- store word (R158). -/
def execSw (rs2 rs1 : Reg) (imm : BitVec 12) (s : State) : Host.Outcome State Fault Refusal :=
  storeFrom (storeAddr s rs1 imm) 32#8 (s.reg rs2) s

/-- store doubleword: eight distinct bytes (R159). -/
def execSd (rs2 rs1 : Reg) (imm : BitVec 12) (s : State) : Host.Outcome State Fault Refusal :=
  storeFrom (storeAddr s rs1 imm) 64#8 (s.reg rs2) s

end Sys2Proof.Machine
end

