-- ==== Sys2Proof/Machine/Upper.lean ====
section
/-! DEFINITION. The upper-immediate instructions (spec/43_upper_immediate.md R150 to R152). -/

namespace Sys2Proof.Machine

/-- add upper immediate to the instruction's own address (R151). -/
def execAuipc (rd : Reg) (imm20 : BitVec 20) (s : State) : Host.Outcome State Fault Refusal :=
  writeResult rd (instrAddr s + immU imm20) s

/-- load upper immediate (R152). -/
def execLui (rd : Reg) (imm20 : BitVec 20) (s : State) : Host.Outcome State Fault Refusal :=
  writeResult rd (immU imm20) s

end Sys2Proof.Machine
end

