-- ==== Sys2Proof/Machine/HostCalls.lean ====
section
/-! DEFINITION. The host's calls on the block (spec/60_exceptions.md R226): fetch, advance_pc, execute, get_pc, set_pc, dump_registers,
initialize (here `hostInitialize`: the bare word is a Lean keyword). `step` is the driver's cycle made of the first three (spec/40_engine.md R100). -/

namespace Sys2Proof.Machine

/-- `fetch()`: the word at the pc, zero-extended to 64 bits, or `OutOfBounds(pc, 4)`; no state changes (R47). -/
def fetch (s : State) : Except Fault Word := busLoad s s.pc 32#8

/-- `advance_pc()`: `pc <- pc + 4 mod 2^64` (R24, R100). -/
def advancePc (s : State) : State := s.setPc (s.pc + 4#64)

/-- `execute(word)`: decode `word[31:0]` (the upper half is ignored, R72), then perform the instruction, or raise
`UnimplementedInstruction` (R102, R203). The status is not checked here (log entry 14). -/
def execute (word : Word) (s : State) : Host.Outcome State Fault Refusal :=
  match decode (word.setWidth 32) with
  | .error _ => takeFault (.unimplementedInstruction (word.setWidth 32)) s
  | .ok i => exec i s

/-- `get_pc()` (R25). -/
def getPc (s : State) : Word := s.pc

/-- `set_pc(addr)`: any 64-bit value (R25). -/
def setPc (addr : Word) (s : State) : State := s.setPc addr

/-- `dump_registers()`: the pairs `(i, x[i])` in index order, x0 as 0 (R224, D9). -/
def dumpRegisters (s : State) : List (Reg × Word) := (List.finRange 32).map fun r => (r, s.reg r)

/-- `initialize(bytes)` on a block of configuration `c`, where `initMem` is `INIT_MEM`, the contents of the RAM bytes the image does not
cover (R231, D16). An image longer than `MEM_SIZE` is refused (log entry 8). -/
def hostInitialize (c : Config) (initMem : Memory) (image : List Byte) : Host.Outcome State Fault Refusal :=
  if image.length ≤ c.memSize then
    .next (State.initialized c (initMem.writeImage c.memBase.toNat image))
  else .refused (.imageTooLong image.length)

/-- The driver's cycle (R100): fetch; when it succeeds, advance the pc and execute. A fetch fault leaves the pc at `P` (R201). -/
def cycle (s : State) : Host.Outcome State Fault Refusal :=
  match fetch s with
  | .error f => takeFault f s
  | .ok w => execute w (advancePc s)

/-- The four bytes of an instruction word stored at the pc, where `fetch` reads; nothing is stored when they are not all in RAM. -/
def placeWordAtPc (s : State) (w : InstrWord) : State :=
  match busStore s s.pc 32#8 (w.setWidth 64) with
  | .ok s' => s'
  | .error _ => s

end Sys2Proof.Machine
end

