-- ==== Sys2Proof/Machine/Step.lean ====
section
/-! DEFINITION. The step of the block (spec/40_engine.md R110), and how a test places the next instruction. -/

namespace Sys2Proof.Machine

/-- One step: a cycle of a running block (R100, R110). A faulted block has no further step (R31, R205): the machine has stopped with its
fault, which is the answer. -/
def step (s : State) : Host.Outcome State Fault Refusal :=
  match s.status with
  | .faulted f => .fault f
  | .running => cycle s

/-- `s` with the instruction whose bits are `w` stored at the pc, little-endian (R46, R47); every instruction is one 32-bit word (R70).
It stands for the host's loading of an image (log entry 6). -/
def State.withFetchWord (s : State) (nbits w : Nat) : State :=
  placeWordAtPc s (BitVec.ofNat 32 (w % 2 ^ nbits))

end Sys2Proof.Machine
end

