-- ==== Sys2Proof/Safety.lean ====
section
/-! DEFINITION. The terms claims are stated in: what one instruction may change (the frames), the invariant of the machine, the classes of
instructions the whole-machine rules of the spec speak of, and the integer value of a run of bytes. -/

namespace Sys2Proof

open Machine

/-! ## Classes of instructions -/

/-- The destination register of an instruction that has one (spec/10_state.md R22: loads, OP-IMM, OP-IMM-32, OP, OP-32, LUI, AUIPC, JAL, JALR). -/
def Instr.dest : Instr → Option Reg
  | .lb rd _ _ => some rd
  | .lh rd _ _ => some rd
  | .lw rd _ _ => some rd
  | .ld rd _ _ => some rd
  | .lbu rd _ _ => some rd
  | .lhu rd _ _ => some rd
  | .lwu rd _ _ => some rd
  | .addi rd _ _ => some rd
  | .slli rd _ _ => some rd
  | .slti rd _ _ => some rd
  | .sltiu rd _ _ => some rd
  | .xori rd _ _ => some rd
  | .srli rd _ _ => some rd
  | .srai rd _ _ => some rd
  | .ori rd _ _ => some rd
  | .andi rd _ _ => some rd
  | .auipc rd _ => some rd
  | .addiw rd _ _ => some rd
  | .slliw rd _ _ => some rd
  | .srliw rd _ _ => some rd
  | .sraiw rd _ _ => some rd
  | .sb _ _ _ => none
  | .sh _ _ _ => none
  | .sw _ _ _ => none
  | .sd _ _ _ => none
  | .add rd _ _ => some rd
  | .mul rd _ _ => some rd
  | .sub rd _ _ => some rd
  | .sll rd _ _ => some rd
  | .slt rd _ _ => some rd
  | .sltu rd _ _ => some rd
  | .xor rd _ _ => some rd
  | .srl rd _ _ => some rd
  | .sra rd _ _ => some rd
  | .or rd _ _ => some rd
  | .and rd _ _ => some rd
  | .lui rd _ => some rd
  | .addw rd _ _ => some rd
  | .subw rd _ _ => some rd
  | .sllw rd _ _ => some rd
  | .srlw rd _ _ => some rd
  | .sraw rd _ _ => some rd
  | .beq _ _ _ => none
  | .bne _ _ _ => none
  | .blt _ _ _ => none
  | .bge _ _ _ => none
  | .bltu _ _ _ => none
  | .bgeu _ _ _ => none
  | .jalr rd _ _ => some rd
  | .jal rd _ => some rd

/-- The loads (spec/41_load.md). -/
def Instr.isLoad : Instr → Bool
  | .lb _ _ _ => true
  | .lh _ _ _ => true
  | .lw _ _ _ => true
  | .ld _ _ _ => true
  | .lbu _ _ _ => true
  | .lhu _ _ _ => true
  | .lwu _ _ _ => true
  | .addi _ _ _ => false
  | .slli _ _ _ => false
  | .slti _ _ _ => false
  | .sltiu _ _ _ => false
  | .xori _ _ _ => false
  | .srli _ _ _ => false
  | .srai _ _ _ => false
  | .ori _ _ _ => false
  | .andi _ _ _ => false
  | .auipc _ _ => false
  | .addiw _ _ _ => false
  | .slliw _ _ _ => false
  | .srliw _ _ _ => false
  | .sraiw _ _ _ => false
  | .sb _ _ _ => false
  | .sh _ _ _ => false
  | .sw _ _ _ => false
  | .sd _ _ _ => false
  | .add _ _ _ => false
  | .mul _ _ _ => false
  | .sub _ _ _ => false
  | .sll _ _ _ => false
  | .slt _ _ _ => false
  | .sltu _ _ _ => false
  | .xor _ _ _ => false
  | .srl _ _ _ => false
  | .sra _ _ _ => false
  | .or _ _ _ => false
  | .and _ _ _ => false
  | .lui _ _ => false
  | .addw _ _ _ => false
  | .subw _ _ _ => false
  | .sllw _ _ _ => false
  | .srlw _ _ _ => false
  | .sraw _ _ _ => false
  | .beq _ _ _ => false
  | .bne _ _ _ => false
  | .blt _ _ _ => false
  | .bge _ _ _ => false
  | .bltu _ _ _ => false
  | .bgeu _ _ _ => false
  | .jalr _ _ _ => false
  | .jal _ _ => false

/-- The stores (spec/44_store.md). -/
def Instr.isStore : Instr → Bool
  | .lb _ _ _ => false
  | .lh _ _ _ => false
  | .lw _ _ _ => false
  | .ld _ _ _ => false
  | .lbu _ _ _ => false
  | .lhu _ _ _ => false
  | .lwu _ _ _ => false
  | .addi _ _ _ => false
  | .slli _ _ _ => false
  | .slti _ _ _ => false
  | .sltiu _ _ _ => false
  | .xori _ _ _ => false
  | .srli _ _ _ => false
  | .srai _ _ _ => false
  | .ori _ _ _ => false
  | .andi _ _ _ => false
  | .auipc _ _ => false
  | .addiw _ _ _ => false
  | .slliw _ _ _ => false
  | .srliw _ _ _ => false
  | .sraiw _ _ _ => false
  | .sb _ _ _ => true
  | .sh _ _ _ => true
  | .sw _ _ _ => true
  | .sd _ _ _ => true
  | .add _ _ _ => false
  | .mul _ _ _ => false
  | .sub _ _ _ => false
  | .sll _ _ _ => false
  | .slt _ _ _ => false
  | .sltu _ _ _ => false
  | .xor _ _ _ => false
  | .srl _ _ _ => false
  | .sra _ _ _ => false
  | .or _ _ _ => false
  | .and _ _ _ => false
  | .lui _ _ => false
  | .addw _ _ _ => false
  | .subw _ _ _ => false
  | .sllw _ _ _ => false
  | .srlw _ _ _ => false
  | .sraw _ _ _ => false
  | .beq _ _ _ => false
  | .bne _ _ _ => false
  | .blt _ _ _ => false
  | .bge _ _ _ => false
  | .bltu _ _ _ => false
  | .bgeu _ _ _ => false
  | .jalr _ _ _ => false
  | .jal _ _ => false

/-- The branches and jumps (spec/46_control_transfer.md). -/
def Instr.isControlTransfer : Instr → Bool
  | .lb _ _ _ => false
  | .lh _ _ _ => false
  | .lw _ _ _ => false
  | .ld _ _ _ => false
  | .lbu _ _ _ => false
  | .lhu _ _ _ => false
  | .lwu _ _ _ => false
  | .addi _ _ _ => false
  | .slli _ _ _ => false
  | .slti _ _ _ => false
  | .sltiu _ _ _ => false
  | .xori _ _ _ => false
  | .srli _ _ _ => false
  | .srai _ _ _ => false
  | .ori _ _ _ => false
  | .andi _ _ _ => false
  | .auipc _ _ => false
  | .addiw _ _ _ => false
  | .slliw _ _ _ => false
  | .srliw _ _ _ => false
  | .sraiw _ _ _ => false
  | .sb _ _ _ => false
  | .sh _ _ _ => false
  | .sw _ _ _ => false
  | .sd _ _ _ => false
  | .add _ _ _ => false
  | .mul _ _ _ => false
  | .sub _ _ _ => false
  | .sll _ _ _ => false
  | .slt _ _ _ => false
  | .sltu _ _ _ => false
  | .xor _ _ _ => false
  | .srl _ _ _ => false
  | .sra _ _ _ => false
  | .or _ _ _ => false
  | .and _ _ _ => false
  | .lui _ _ => false
  | .addw _ _ _ => false
  | .subw _ _ _ => false
  | .sllw _ _ _ => false
  | .srlw _ _ _ => false
  | .sraw _ _ _ => false
  | .beq _ _ _ => true
  | .bne _ _ _ => true
  | .blt _ _ _ => true
  | .bge _ _ _ => true
  | .bltu _ _ _ => true
  | .bgeu _ _ _ => true
  | .jalr _ _ _ => true
  | .jal _ _ => true

namespace Machine

/-! ## Values -/

/-- The integer value of the `n` bytes from `a` on, least significant first (spec/20_memory.md R42). -/
def State.bytesValue (s : State) : Nat → Nat → Nat
  | _, 0 => 0
  | a, n + 1 => (s.readByte a).toNat + 256 * s.bytesValue (a + 1) n

/-! ## Frames: what changes from `s` to `t`, everything else being the same -/

/-- `x[rd] <- v` and nothing else; when rd = x0 the value is discarded and x0 reads 0 (R21). -/
structure State.OnlyWrites (s t : State) (rd : Reg) (v : Word) : Prop where
  dest : t.reg rd = if rd = 0 then 0#64 else v
  regs : ∀ r, r ≠ rd → t.reg r = s.reg r
  pc : t.pc = s.pc
  bytes : ∀ a, t.readByte a = s.readByte a
  status : t.status = s.status
  cfg : t.cfg = s.cfg

/-- `pc <- target` and nothing else. -/
structure State.OnlyJumps (s t : State) (target : Word) : Prop where
  regs : ∀ r, t.reg r = s.reg r
  pc : t.pc = target
  bytes : ∀ a, t.readByte a = s.readByte a
  status : t.status = s.status
  cfg : t.cfg = s.cfg

/-- `x[rd] <- link; pc <- target` and nothing else. -/
structure State.OnlyLinks (s t : State) (rd : Reg) (link target : Word) : Prop where
  dest : t.reg rd = if rd = 0 then 0#64 else link
  regs : ∀ r, r ≠ rd → t.reg r = s.reg r
  pc : t.pc = target
  bytes : ∀ a, t.readByte a = s.readByte a
  status : t.status = s.status
  cfg : t.cfg = s.cfg

/-- The `n` bytes from `a` on are those of `v`, least significant first, and nothing else changes (R43). -/
structure State.OnlyStores (s t : State) (a n : Nat) (v : Word) : Prop where
  stored : ∀ k, k < n → t.readByte (a + k) = v.extractLsb' (8 * k) 8
  bytes : ∀ b, b < a ∨ a + n ≤ b → t.readByte b = s.readByte b
  regs : ∀ r, t.reg r = s.reg r
  pc : t.pc = s.pc
  status : t.status = s.status
  cfg : t.cfg = s.cfg

/-- The run status becomes `Faulted(f)` and nothing else changes (R104, R207). -/
structure State.OnlyFaults (s t : State) (f : Fault) : Prop where
  status : t.status = .faulted f
  regs : ∀ r, t.reg r = s.reg r
  pc : t.pc = s.pc
  bytes : ∀ a, t.readByte a = s.readByte a
  cfg : t.cfg = s.cfg

/-! ## Safe states -/

/-- Every cell memory lists lies in the RAM window (R29, R52). -/
abbrev Memory.InWindow (c : Config) (m : Memory) : Prop :=
  ∀ e ∈ m, c.memBase.toNat ≤ e.1 ∧ e.1 < c.memBase.toNat + c.memSize

/-- The fault is one a run of this block can raise, and its information is true of it: an `OutOfBounds(a, n)` access really is out of
bounds and has one of the four sizes (R201); an `UnimplementedInstruction(w)` word really decodes to nothing (R203);
`UnsupportedWidth` never occurs (R45, R202). -/
def FaultIsHonest (c : Config) : Fault → Prop
  | .outOfBounds a n => n ∈ [1, 2, 4, 8] ∧ ¬ InBounds c a n
  | .unsupportedWidth _ => False
  | .unimplementedInstruction w => ∀ i, decode w ≠ .ok i

/-- The invariant of the machine: the configuration meets R9's constraints; memory is in canonical form and lies in the RAM window; the
hardwired register's slot holds 0 (R21); a recorded fault is honest. -/
structure State.Inv (s : State) : Prop where
  cfgValid : s.cfg.Valid
  memWf : s.mem.wf
  memInWindow : s.mem.InWindow s.cfg
  zeroSlot : s.x[0] = 0#64
  faultHonest : ∀ f, s.status = .faulted f → FaultIsHonest s.cfg f

/-- The four bytes at the pc are all inside RAM, so that the next fetch succeeds (R47). -/
abbrev State.FetchInBounds (s : State) : Prop := InBounds s.cfg s.pc 4

end Machine

end Sys2Proof
end

