-- ==== Sys2Proof/Certificates/Slice0/Obligations.lean ====
section
/-! DEFINITION. The statements for the provers. Each says in integers what its rule of spec/ says in words; `exec` runs with the pc already
at `P + 4` (spec/40_engine.md R101), so `s.pc` below is `P + 4` wherever `exec` is spoken of. A clause `decode (pack… ) = .ok i` is the
rule's Encoding line; its funct3, funct7 and funct6 values are the spec's decision D3 (log entry 9). -/

open Sys2Proof Sys2Proof.Machine

/-! ## Encoding -/

/-- Words written out field by field from R70 and R90, one per opcode, are the instructions they stand for. -/
def Obligations.SpecWordsDecodeToTheirInstructions : Prop :=
  decode 0b000000101010_00000_000_00101_0010011#32 = .ok (.addi 5 0 42) ∧
  decode 0b111111111100_00101_010_00110_0000011#32 = .ok (.lw 6 5 (-4#12)) ∧
  decode 0b010000_111111_00101_101_00110_0010011#32 = .ok (.srai 6 5 63#6) ∧
  decode 0b0100000_11111_00101_101_00110_0011011#32 = .ok (.sraiw 6 5 31#5) ∧
  decode 0b1111111_00110_00101_010_11100_0100011#32 = .ok (.sw 6 5 (-4#12)) ∧
  decode 0b0000001_00111_00101_000_00110_0110011#32 = .ok (.mul 6 5 7) ∧
  decode 0b0100000_00111_00101_000_00110_0111011#32 = .ok (.subw 6 5 7) ∧
  decode 0b1_111111_00111_00101_001_1100_1_1100011#32 = .ok (.bne 5 7 (-8#13)) ∧
  decode 0b000000000100_00101_000_00101_1100111#32 = .ok (.jalr 5 5 4#12) ∧
  decode 0b1_1111111110_1_11111111_00000_1101111#32 = .ok (.jal 0 (-4#21)) ∧
  decode 0b10000000000000000000_00110_0110111#32 = .ok (.lui 6 0x80000#20) ∧
  decode 0b00000000000000000001_00110_0010111#32 = .ok (.auipc 6 1#20)

/-- Decoding the word of a well-formed instruction gives the instruction back, every operand included. -/
def Obligations.DecodeOfEncodeIsIdentity : Prop :=
  ∀ i : Instr, i.wellFormed = true → decode (encode i) = .ok i

/-- A word that decodes is the word of what it decodes to, and what it decodes to is well-formed: no bit of a word is ignored. -/
def Obligations.EncodeOfDecodeIsIdentity : Prop :=
  ∀ (w : InstrWord) (i : Instr), decode w = .ok i → encode i = w ∧ i.wellFormed = true

/-- No word matches two rows of the opcode table (R85). -/
def Obligations.OpcodeTableRowsAreDisjoint : Prop :=
  ∀ (w : InstrWord), ∀ r ∈ opcodeTable, ∀ r' ∈ opcodeTable, r.Matches w → r'.Matches w → r = r'

/-- The decoder accepts exactly the words that match a row of the opcode table, and gives each the row's own instruction (R85, R90, R91). -/
def Obligations.DecoderAcceptsExactlyTheOpcodeTable : Prop :=
  (∀ (w : InstrWord) (i : Instr), decode w = .ok i → ∃ r ∈ opcodeTable, r.mnemonic = i.mnemonic ∧ r.Matches w) ∧
  (∀ (w : InstrWord), ∀ r ∈ opcodeTable, r.Matches w → ∃ i, decode w = .ok i ∧ i.mnemonic = r.mnemonic)

/-- The five immediates as signed integers, by the weight of each field of the word (R75 to R79). -/
def Obligations.ImmediatesFollowTheirFormulas : Prop :=
  ∀ w : InstrWord,
    let bit (k : Nat) : Int := (w.extractLsb' k 1).toNat
    let bits (lo len : Nat) : Int := (w.extractLsb' lo len).toNat
    (immI (fieldImmI w)).toInt = bits 20 11 - 2048 * bit 31 ∧
    (immS (fieldImmS w)).toInt = 32 * bits 25 6 + bits 7 5 - 2048 * bit 31 ∧
    (immB (fieldImmB w)).toInt = 2048 * bit 7 + 32 * bits 25 6 + 2 * bits 8 4 - 4096 * bit 31 ∧
    (immU (fieldImmU w)).toInt = 4096 * bits 12 19 - 2147483648 * bit 31 ∧
    (immJ (fieldImmJ w)).toInt = 4096 * bits 12 8 + 2048 * bit 20 + 2 * bits 21 10 - 1048576 * bit 31

/-! ## The bus and the fetch -/

/-- `load(addr, width)`: width check, then bounds check, then the bytes, little-endian and zero-extended. The order of the two checks is the
spec's decision D24 and the unbounded comparison its D12 (log entries 12, 13). -/
def Obligations.BusLoadContract : Prop :=
  ∀ (s : State) (a : Word) (width : BitVec 8),
    (width.toNat ∉ [8, 16, 32, 64] → busLoad s a width = .error (.unsupportedWidth width)) ∧
    ∀ n ∈ [1, 2, 4, 8], width.toNat = 8 * n →
      (InBounds s.cfg a n → ∃ v, busLoad s a width = .ok v ∧ v.toNat = s.bytesValue a.toNat n) ∧
      (¬ InBounds s.cfg a n → busLoad s a width = .error (.outOfBounds a n))

/-- `store(addr, width, value)`: the same checks, then exactly the addressed bytes change; a faulting store writes no byte (D21, log entry
13). -/
def Obligations.BusStoreContract : Prop :=
  ∀ (s : State) (a v : Word) (width : BitVec 8),
    (width.toNat ∉ [8, 16, 32, 64] → busStore s a width v = .error (.unsupportedWidth width)) ∧
    ∀ n ∈ [1, 2, 4, 8], width.toNat = 8 * n →
      (InBounds s.cfg a n → ∃ t, busStore s a width v = .ok t ∧ s.OnlyStores t a.toNat n v) ∧
      (¬ InBounds s.cfg a n → busStore s a width v = .error (.outOfBounds a n))

/-- The round trip and the bounds of R59: what was stored is what is loaded, masked to the width; accesses one below the base and at the end
fault, accesses at the base and at the last place for the width succeed. -/
def Obligations.StoreThenLoadReturnsTheMaskedValue : Prop :=
  ∀ (s : State) (v : Word) (width : BitVec 8), ∀ n ∈ [1, 2, 4, 8], width.toNat = 8 * n →
    (∀ a, InBounds s.cfg a n → ∃ t u, busStore s a width v = .ok t ∧ busLoad t a width = .ok u ∧ u.toNat = v.toNat % 256 ^ n) ∧
    (s.cfg.Valid → n ≤ s.cfg.memSize →
      busLoad s (s.cfg.memBase - 1#64) width = .error (.outOfBounds (s.cfg.memBase - 1#64) n) ∧
      busStore s (s.cfg.memBase - 1#64) width v = .error (.outOfBounds (s.cfg.memBase - 1#64) n) ∧
      busLoad s (ramEnd s.cfg) width = .error (.outOfBounds (ramEnd s.cfg) n) ∧
      busStore s (ramEnd s.cfg) width v = .error (.outOfBounds (ramEnd s.cfg) n) ∧
      (∃ u, busLoad s s.cfg.memBase width = .ok u) ∧
      (∃ t, busStore s s.cfg.memBase width v = .ok t) ∧
      (∃ u, busLoad s (ramEnd s.cfg - BitVec.ofNat 64 n) width = .ok u) ∧
      (∃ t, busStore s (ramEnd s.cfg - BitVec.ofNat 64 n) width v = .ok t))

/-- A doubleword store seen through narrower loads (R46). -/
def Obligations.MixedWidthReadsAreLittleEndian : Prop :=
  ∀ (s : State) (a v : Word), s.cfg.Valid → InBounds s.cfg a 8 →
    ∃ t, busStore s a 64#8 v = .ok t ∧
      (∃ u, busLoad t a 32#8 = .ok u ∧ u.toNat = v.toNat % 2 ^ 32) ∧
      (∃ u, busLoad t (a + 4#64) 32#8 = .ok u ∧ u.toNat = v.toNat / 2 ^ 32) ∧
      (∃ u, busLoad t a 8#8 = .ok u ∧ u.toNat = v.toNat % 2 ^ 8) ∧
      (∃ u, busLoad t (a + 7#64) 8#8 = .ok u ∧ u.toNat = v.toNat / 2 ^ 56)

/-- `fetch()` reads the four bytes at the pc, little-endian and zero-extended, at any alignment, or reports `OutOfBounds(pc, 4)` (R47). -/
def Obligations.FetchReadsTheWordAtThePc : Prop :=
  ∀ s : State,
    (InBounds s.cfg s.pc 4 → ∃ w, fetch s = .ok w ∧ w.toNat = s.bytesValue s.pc.toNat 4) ∧
    (¬ InBounds s.cfg s.pc 4 → fetch s = .error (.outOfBounds s.pc 4))

/-! ## Loads (spec/41_load.md). The address formula is the spec's decision D10 (log entry 9) -/

/-- Effective addresses are computed on integers and wrap modulo 2^64, for loads and for stores (R120, R155; D10). -/
def Obligations.EffectiveAddressesWrap : Prop :=
  ∀ (s : State) (rs1 : Reg) (imm : BitVec 12),
    loadAddr s rs1 imm = BitVec.ofInt 64 ((s.reg rs1).toNat + imm.toInt) ∧
    storeAddr s rs1 imm = BitVec.ofInt 64 ((s.reg rs1).toNat + imm.toInt)

/-- LB, LH, LW: the addressed bytes as a signed integer into `rd`, nothing else; out of bounds, `OutOfBounds(a, n)` and no effect. -/
def Obligations.SignedLoads : Prop :=
  ∀ (rd rs1 : Reg) (imm : BitVec 12) (s : State),
    let a := loadAddr s rs1 imm
    (decode (packI imm rs1 0b000#3 rd 0x03#7) = .ok (.lb rd rs1 imm) ∧
      (InBounds s.cfg a 1 → ∃ t, exec (.lb rd rs1 imm) s = .next t ∧
        s.OnlyWrites t rd (BitVec.ofInt 64 (Int.bmod (s.bytesValue a.toNat 1) (2 ^ 8)))) ∧
      (¬ InBounds s.cfg a 1 → ∃ t, exec (.lb rd rs1 imm) s = .next t ∧ s.OnlyFaults t (.outOfBounds a 1))) ∧
    (decode (packI imm rs1 0b001#3 rd 0x03#7) = .ok (.lh rd rs1 imm) ∧
      (InBounds s.cfg a 2 → ∃ t, exec (.lh rd rs1 imm) s = .next t ∧
        s.OnlyWrites t rd (BitVec.ofInt 64 (Int.bmod (s.bytesValue a.toNat 2) (2 ^ 16)))) ∧
      (¬ InBounds s.cfg a 2 → ∃ t, exec (.lh rd rs1 imm) s = .next t ∧ s.OnlyFaults t (.outOfBounds a 2))) ∧
    (decode (packI imm rs1 0b010#3 rd 0x03#7) = .ok (.lw rd rs1 imm) ∧
      (InBounds s.cfg a 4 → ∃ t, exec (.lw rd rs1 imm) s = .next t ∧
        s.OnlyWrites t rd (BitVec.ofInt 64 (Int.bmod (s.bytesValue a.toNat 4) (2 ^ 32)))) ∧
      (¬ InBounds s.cfg a 4 → ∃ t, exec (.lw rd rs1 imm) s = .next t ∧ s.OnlyFaults t (.outOfBounds a 4)))

/-- LD, LBU, LHU, LWU: the addressed bytes as an unsigned integer into `rd`, nothing else; out of bounds, `OutOfBounds(a, n)` and no
effect. -/
def Obligations.UnsignedLoads : Prop :=
  ∀ (rd rs1 : Reg) (imm : BitVec 12) (s : State),
    let a := loadAddr s rs1 imm
    (decode (packI imm rs1 0b011#3 rd 0x03#7) = .ok (.ld rd rs1 imm) ∧
      (InBounds s.cfg a 8 → ∃ t, exec (.ld rd rs1 imm) s = .next t ∧
        s.OnlyWrites t rd (BitVec.ofNat 64 (s.bytesValue a.toNat 8))) ∧
      (¬ InBounds s.cfg a 8 → ∃ t, exec (.ld rd rs1 imm) s = .next t ∧ s.OnlyFaults t (.outOfBounds a 8))) ∧
    (decode (packI imm rs1 0b100#3 rd 0x03#7) = .ok (.lbu rd rs1 imm) ∧
      (InBounds s.cfg a 1 → ∃ t, exec (.lbu rd rs1 imm) s = .next t ∧
        s.OnlyWrites t rd (BitVec.ofNat 64 (s.bytesValue a.toNat 1))) ∧
      (¬ InBounds s.cfg a 1 → ∃ t, exec (.lbu rd rs1 imm) s = .next t ∧ s.OnlyFaults t (.outOfBounds a 1))) ∧
    (decode (packI imm rs1 0b101#3 rd 0x03#7) = .ok (.lhu rd rs1 imm) ∧
      (InBounds s.cfg a 2 → ∃ t, exec (.lhu rd rs1 imm) s = .next t ∧
        s.OnlyWrites t rd (BitVec.ofNat 64 (s.bytesValue a.toNat 2))) ∧
      (¬ InBounds s.cfg a 2 → ∃ t, exec (.lhu rd rs1 imm) s = .next t ∧ s.OnlyFaults t (.outOfBounds a 2))) ∧
    (decode (packI imm rs1 0b110#3 rd 0x03#7) = .ok (.lwu rd rs1 imm) ∧
      (InBounds s.cfg a 4 → ∃ t, exec (.lwu rd rs1 imm) s = .next t ∧
        s.OnlyWrites t rd (BitVec.ofNat 64 (s.bytesValue a.toNat 4))) ∧
      (¬ InBounds s.cfg a 4 → ∃ t, exec (.lwu rd rs1 imm) s = .next t ∧ s.OnlyFaults t (.outOfBounds a 4)))

/-! ## Stores (spec/44_store.md) -/

/-- SB, SH, SW, SD: the low bytes of `x[rs2]`, least significant first, into exactly the addressed bytes, nothing else; out of bounds,
`OutOfBounds(a, n)` and no byte written (D21). -/
def Obligations.StoresWriteExactlyTheirBytes : Prop :=
  ∀ (rs2 rs1 : Reg) (imm : BitVec 12) (s : State),
    let a := storeAddr s rs1 imm
    (decode (packS imm rs2 rs1 0b000#3 0x23#7) = .ok (.sb rs2 rs1 imm) ∧
      (InBounds s.cfg a 1 → ∃ t, exec (.sb rs2 rs1 imm) s = .next t ∧ s.OnlyStores t a.toNat 1 (s.reg rs2)) ∧
      (¬ InBounds s.cfg a 1 → ∃ t, exec (.sb rs2 rs1 imm) s = .next t ∧ s.OnlyFaults t (.outOfBounds a 1))) ∧
    (decode (packS imm rs2 rs1 0b001#3 0x23#7) = .ok (.sh rs2 rs1 imm) ∧
      (InBounds s.cfg a 2 → ∃ t, exec (.sh rs2 rs1 imm) s = .next t ∧ s.OnlyStores t a.toNat 2 (s.reg rs2)) ∧
      (¬ InBounds s.cfg a 2 → ∃ t, exec (.sh rs2 rs1 imm) s = .next t ∧ s.OnlyFaults t (.outOfBounds a 2))) ∧
    (decode (packS imm rs2 rs1 0b010#3 0x23#7) = .ok (.sw rs2 rs1 imm) ∧
      (InBounds s.cfg a 4 → ∃ t, exec (.sw rs2 rs1 imm) s = .next t ∧ s.OnlyStores t a.toNat 4 (s.reg rs2)) ∧
      (¬ InBounds s.cfg a 4 → ∃ t, exec (.sw rs2 rs1 imm) s = .next t ∧ s.OnlyFaults t (.outOfBounds a 4))) ∧
    (decode (packS imm rs2 rs1 0b011#3 0x23#7) = .ok (.sd rs2 rs1 imm) ∧
      (InBounds s.cfg a 8 → ∃ t, exec (.sd rs2 rs1 imm) s = .next t ∧ s.OnlyStores t a.toNat 8 (s.reg rs2)) ∧
      (¬ InBounds s.cfg a 8 → ∃ t, exec (.sd rs2 rs1 imm) s = .next t ∧ s.OnlyFaults t (.outOfBounds a 8)))

/-! ## Register-immediate operations (spec/42_op_imm.md) -/

/-- ADDI: `x[rd] <- x[rs1] + immI` mod 2^64 (R131; its opcode and funct3 are the source's own). -/
def Obligations.AddImmediate : Prop :=
  ∀ (rd rs1 : Reg) (imm : BitVec 12) (s : State),
    decode (packI imm rs1 0b000#3 rd 0x13#7) = .ok (.addi rd rs1 imm) ∧
    ∃ t, exec (.addi rd rs1 imm) s = .next t ∧
      s.OnlyWrites t rd (BitVec.ofInt 64 ((s.reg rs1).toNat + imm.toInt))

/-- XORI, ORI, ANDI, bit by bit: bit k of the immediate is its bit 11 from bit 11 up (R135, R138, R139). -/
def Obligations.LogicalImmediates : Prop :=
  ∀ (rd rs1 : Reg) (imm : BitVec 12) (s : State),
    (decode (packI imm rs1 0b100#3 rd 0x13#7) = .ok (.xori rd rs1 imm) ∧
      ∃ t v, exec (.xori rd rs1 imm) s = .next t ∧ s.OnlyWrites t rd v ∧
        ∀ k < 64, v.getLsbD k = ((s.reg rs1).getLsbD k ^^ imm.getLsbD (min k 11))) ∧
    (decode (packI imm rs1 0b110#3 rd 0x13#7) = .ok (.ori rd rs1 imm) ∧
      ∃ t v, exec (.ori rd rs1 imm) s = .next t ∧ s.OnlyWrites t rd v ∧
        ∀ k < 64, v.getLsbD k = ((s.reg rs1).getLsbD k || imm.getLsbD (min k 11))) ∧
    (decode (packI imm rs1 0b111#3 rd 0x13#7) = .ok (.andi rd rs1 imm) ∧
      ∃ t v, exec (.andi rd rs1 imm) s = .next t ∧ s.OnlyWrites t rd v ∧
        ∀ k < 64, v.getLsbD k = ((s.reg rs1).getLsbD k && imm.getLsbD (min k 11)))

/-- SLTI and SLTIU: 1 or 0 by comparing `x[rs1]` with the sign-extended immediate, as signed integers, or both as unsigned ones (R133, R134;
the extension of SLTIU's immediate is the spec's decision D23, log entry 9). -/
def Obligations.CompareImmediates : Prop :=
  ∀ (rd rs1 : Reg) (imm : BitVec 12) (s : State),
    (decode (packI imm rs1 0b010#3 rd 0x13#7) = .ok (.slti rd rs1 imm) ∧
      ∃ t, exec (.slti rd rs1 imm) s = .next t ∧
        s.OnlyWrites t rd (if (s.reg rs1).toInt < imm.toInt then 1#64 else 0#64)) ∧
    (decode (packI imm rs1 0b011#3 rd 0x13#7) = .ok (.sltiu rd rs1 imm) ∧
      ∃ t, exec (.sltiu rd rs1 imm) s = .next t ∧
        s.OnlyWrites t rd (if ((s.reg rs1).toNat : Int) < imm.toInt % 2 ^ 64 then 1#64 else 0#64))

/-- SLLI, SRLI, SRAI as multiplication and (flooring) division by a power of two, for every shift amount 0 to 63 (R132, R136, R137; the
6-bit amount beside a 6-bit selector is the spec's decision D5, log entry 10). -/
def Obligations.ShiftImmediates : Prop :=
  ∀ (rd rs1 : Reg) (shamt : BitVec 6) (s : State),
    (decode (packShift64 0b000000#6 shamt rs1 0b001#3 rd 0x13#7) = .ok (.slli rd rs1 shamt) ∧
      ∃ t, exec (.slli rd rs1 shamt) s = .next t ∧
        s.OnlyWrites t rd (BitVec.ofNat 64 ((s.reg rs1).toNat * 2 ^ shamt.toNat))) ∧
    (decode (packShift64 0b000000#6 shamt rs1 0b101#3 rd 0x13#7) = .ok (.srli rd rs1 shamt) ∧
      ∃ t, exec (.srli rd rs1 shamt) s = .next t ∧
        s.OnlyWrites t rd (BitVec.ofNat 64 ((s.reg rs1).toNat / 2 ^ shamt.toNat))) ∧
    (decode (packShift64 0b010000#6 shamt rs1 0b101#3 rd 0x13#7) = .ok (.srai rd rs1 shamt) ∧
      ∃ t, exec (.srai rd rs1 shamt) s = .next t ∧
        s.OnlyWrites t rd (BitVec.ofInt 64 ((s.reg rs1).toInt / 2 ^ shamt.toNat)))

/-- ADDIW, SLLIW, SRLIW, SRAIW: computed on the low 32 bits, the 32-bit result taken as a signed integer (R140 to R143). -/
def Obligations.WordImmediates : Prop :=
  ∀ (rd rs1 : Reg) (imm : BitVec 12) (shamt : BitVec 5) (s : State),
    (decode (packI imm rs1 0b000#3 rd 0x1b#7) = .ok (.addiw rd rs1 imm) ∧
      ∃ t, exec (.addiw rd rs1 imm) s = .next t ∧
        s.OnlyWrites t rd (BitVec.ofInt 64 (Int.bmod ((s.reg rs1).toNat + imm.toInt) (2 ^ 32)))) ∧
    (decode (packShift32 0b0000000#7 shamt rs1 0b001#3 rd 0x1b#7) = .ok (.slliw rd rs1 shamt) ∧
      ∃ t, exec (.slliw rd rs1 shamt) s = .next t ∧
        s.OnlyWrites t rd (BitVec.ofInt 64 (Int.bmod ((s.reg rs1).toNat * 2 ^ shamt.toNat : Nat) (2 ^ 32)))) ∧
    (decode (packShift32 0b0000000#7 shamt rs1 0b101#3 rd 0x1b#7) = .ok (.srliw rd rs1 shamt) ∧
      ∃ t, exec (.srliw rd rs1 shamt) s = .next t ∧
        s.OnlyWrites t rd (BitVec.ofInt 64 (Int.bmod ((s.reg rs1).toNat % 2 ^ 32 / 2 ^ shamt.toNat : Nat) (2 ^ 32)))) ∧
    (decode (packShift32 0b0100000#7 shamt rs1 0b101#3 rd 0x1b#7) = .ok (.sraiw rd rs1 shamt) ∧
      ∃ t, exec (.sraiw rd rs1 shamt) s = .next t ∧
        s.OnlyWrites t rd (BitVec.ofInt 64 (Int.bmod ((s.reg rs1).toNat : Nat) (2 ^ 32) / 2 ^ shamt.toNat)))

/-! ## Upper-immediate instructions (spec/43_upper_immediate.md) -/

/-- AUIPC and LUI: both selected by the opcode alone; `immU` is the 20 bits times 4096, taken as a signed 32-bit integer; AUIPC adds it to the
instruction's own address `P = pc - 4`; neither depends on a register (R150, R151, R152). -/
def Obligations.UpperImmediates : Prop :=
  ∀ (rd : Reg) (imm20 : BitVec 20) (s : State),
    (decode (packU imm20 rd 0x17#7) = .ok (.auipc rd imm20) ∧
      ∃ t, exec (.auipc rd imm20) s = .next t ∧
        s.OnlyWrites t rd (BitVec.ofInt 64 (s.pc.toNat - 4 + Int.bmod (4096 * imm20.toNat : Nat) (2 ^ 32)))) ∧
    (decode (packU imm20 rd 0x37#7) = .ok (.lui rd imm20) ∧
      ∃ t, exec (.lui rd imm20) s = .next t ∧
        s.OnlyWrites t rd (BitVec.ofInt 64 (Int.bmod (4096 * imm20.toNat : Nat) (2 ^ 32))))

/-! ## Register-register operations (spec/45_op.md) -/

/-- ADD, MUL, SUB modulo 2^64; MUL's low half is the same for signed and for unsigned operands (R161 to R163). -/
def Obligations.AddMultiplySubtract : Prop :=
  ∀ (rd rs1 rs2 : Reg) (s : State),
    (decode (packR 0b0000000#7 rs2 rs1 0b000#3 rd 0x33#7) = .ok (.add rd rs1 rs2) ∧
      ∃ t, exec (.add rd rs1 rs2) s = .next t ∧
        s.OnlyWrites t rd (BitVec.ofNat 64 ((s.reg rs1).toNat + (s.reg rs2).toNat))) ∧
    (decode (packR 0b0000001#7 rs2 rs1 0b000#3 rd 0x33#7) = .ok (.mul rd rs1 rs2) ∧
      ∃ t, exec (.mul rd rs1 rs2) s = .next t ∧
        s.OnlyWrites t rd (BitVec.ofNat 64 ((s.reg rs1).toNat * (s.reg rs2).toNat)) ∧
        s.OnlyWrites t rd (BitVec.ofInt 64 ((s.reg rs1).toInt * (s.reg rs2).toInt))) ∧
    (decode (packR 0b0100000#7 rs2 rs1 0b000#3 rd 0x33#7) = .ok (.sub rd rs1 rs2) ∧
      ∃ t, exec (.sub rd rs1 rs2) s = .next t ∧
        s.OnlyWrites t rd (BitVec.ofInt 64 ((s.reg rs1).toNat - (s.reg rs2).toNat)))

/-- SLL, SRL, SRA by `x[rs2]` modulo 64, as multiplication and (flooring) division by a power of two (R164, R168, R169; the amount is the
spec's decision D11, log entry 9). -/
def Obligations.RegisterShifts : Prop :=
  ∀ (rd rs1 rs2 : Reg) (s : State),
    let n := (s.reg rs2).toNat % 64
    (decode (packR 0b0000000#7 rs2 rs1 0b001#3 rd 0x33#7) = .ok (.sll rd rs1 rs2) ∧
      ∃ t, exec (.sll rd rs1 rs2) s = .next t ∧ s.OnlyWrites t rd (BitVec.ofNat 64 ((s.reg rs1).toNat * 2 ^ n))) ∧
    (decode (packR 0b0000000#7 rs2 rs1 0b101#3 rd 0x33#7) = .ok (.srl rd rs1 rs2) ∧
      ∃ t, exec (.srl rd rs1 rs2) s = .next t ∧ s.OnlyWrites t rd (BitVec.ofNat 64 ((s.reg rs1).toNat / 2 ^ n))) ∧
    (decode (packR 0b0100000#7 rs2 rs1 0b101#3 rd 0x33#7) = .ok (.sra rd rs1 rs2) ∧
      ∃ t, exec (.sra rd rs1 rs2) s = .next t ∧ s.OnlyWrites t rd (BitVec.ofInt 64 ((s.reg rs1).toInt / 2 ^ n)))

/-- SLT and SLTU: 1 or 0 by comparing as signed, and as unsigned, integers (R165, R166). -/
def Obligations.RegisterCompares : Prop :=
  ∀ (rd rs1 rs2 : Reg) (s : State),
    (decode (packR 0b0000000#7 rs2 rs1 0b010#3 rd 0x33#7) = .ok (.slt rd rs1 rs2) ∧
      ∃ t, exec (.slt rd rs1 rs2) s = .next t ∧
        s.OnlyWrites t rd (if (s.reg rs1).toInt < (s.reg rs2).toInt then 1#64 else 0#64)) ∧
    (decode (packR 0b0000000#7 rs2 rs1 0b011#3 rd 0x33#7) = .ok (.sltu rd rs1 rs2) ∧
      ∃ t, exec (.sltu rd rs1 rs2) s = .next t ∧
        s.OnlyWrites t rd (if (s.reg rs1).toNat < (s.reg rs2).toNat then 1#64 else 0#64))

/-- XOR, OR, AND, bit by bit (R167, R170, R171). -/
def Obligations.RegisterLogic : Prop :=
  ∀ (rd rs1 rs2 : Reg) (s : State),
    (decode (packR 0b0000000#7 rs2 rs1 0b100#3 rd 0x33#7) = .ok (.xor rd rs1 rs2) ∧
      ∃ t v, exec (.xor rd rs1 rs2) s = .next t ∧ s.OnlyWrites t rd v ∧
        ∀ k < 64, v.getLsbD k = ((s.reg rs1).getLsbD k ^^ (s.reg rs2).getLsbD k)) ∧
    (decode (packR 0b0000000#7 rs2 rs1 0b110#3 rd 0x33#7) = .ok (.or rd rs1 rs2) ∧
      ∃ t v, exec (.or rd rs1 rs2) s = .next t ∧ s.OnlyWrites t rd v ∧
        ∀ k < 64, v.getLsbD k = ((s.reg rs1).getLsbD k || (s.reg rs2).getLsbD k)) ∧
    (decode (packR 0b0000000#7 rs2 rs1 0b111#3 rd 0x33#7) = .ok (.and rd rs1 rs2) ∧
      ∃ t v, exec (.and rd rs1 rs2) s = .next t ∧ s.OnlyWrites t rd v ∧
        ∀ k < 64, v.getLsbD k = ((s.reg rs1).getLsbD k && (s.reg rs2).getLsbD k))

/-- ADDW, SUBW, SLLW, SRLW, SRAW: computed on the low 32 bits, the 32-bit result taken as a signed integer; shifts by `x[rs2]` modulo 32
(R172 to R176; the amount is the spec's decision D11, log entry 9). -/
def Obligations.WordRegisterOperations : Prop :=
  ∀ (rd rs1 rs2 : Reg) (s : State),
    let n := (s.reg rs2).toNat % 32
    (decode (packR 0b0000000#7 rs2 rs1 0b000#3 rd 0x3b#7) = .ok (.addw rd rs1 rs2) ∧
      ∃ t, exec (.addw rd rs1 rs2) s = .next t ∧
        s.OnlyWrites t rd (BitVec.ofInt 64 (Int.bmod ((s.reg rs1).toNat + (s.reg rs2).toNat : Nat) (2 ^ 32)))) ∧
    (decode (packR 0b0100000#7 rs2 rs1 0b000#3 rd 0x3b#7) = .ok (.subw rd rs1 rs2) ∧
      ∃ t, exec (.subw rd rs1 rs2) s = .next t ∧
        s.OnlyWrites t rd (BitVec.ofInt 64 (Int.bmod ((s.reg rs1).toNat - (s.reg rs2).toNat) (2 ^ 32)))) ∧
    (decode (packR 0b0000000#7 rs2 rs1 0b001#3 rd 0x3b#7) = .ok (.sllw rd rs1 rs2) ∧
      ∃ t, exec (.sllw rd rs1 rs2) s = .next t ∧
        s.OnlyWrites t rd (BitVec.ofInt 64 (Int.bmod ((s.reg rs1).toNat * 2 ^ n : Nat) (2 ^ 32)))) ∧
    (decode (packR 0b0000000#7 rs2 rs1 0b101#3 rd 0x3b#7) = .ok (.srlw rd rs1 rs2) ∧
      ∃ t, exec (.srlw rd rs1 rs2) s = .next t ∧
        s.OnlyWrites t rd (BitVec.ofInt 64 (Int.bmod ((s.reg rs1).toNat % 2 ^ 32 / 2 ^ n : Nat) (2 ^ 32)))) ∧
    (decode (packR 0b0100000#7 rs2 rs1 0b101#3 rd 0x3b#7) = .ok (.sraw rd rs1 rs2) ∧
      ∃ t, exec (.sraw rd rs1 rs2) s = .next t ∧
        s.OnlyWrites t rd (BitVec.ofInt 64 (Int.bmod ((s.reg rs1).toNat : Nat) (2 ^ 32) / 2 ^ n)))

/-- A W instruction computes on the low 32 bits of its operands and writes a sign-extended 32-bit result: two states whose operand registers
agree in their low 32 bits get the same result, and that result is the sign extension of its own low half (R108). -/
def Obligations.WordResultsDependOnLowHalvesOnly : Prop :=
  ∀ (rd rs1 rs2 : Reg) (imm : BitVec 12) (shamt : BitVec 5),
    ∀ i ∈ [Instr.addiw rd rs1 imm, .slliw rd rs1 shamt, .srliw rd rs1 shamt, .sraiw rd rs1 shamt,
        .addw rd rs1 rs2, .subw rd rs1 rs2, .sllw rd rs1 rs2, .srlw rd rs1 rs2, .sraw rd rs1 rs2],
      ∀ s s' : State, (s.reg rs1).toNat % 2 ^ 32 = (s'.reg rs1).toNat % 2 ^ 32 →
        (s.reg rs2).toNat % 2 ^ 32 = (s'.reg rs2).toNat % 2 ^ 32 →
        ∃ t t', exec i s = .next t ∧ exec i s' = .next t' ∧ t.reg rd = t'.reg rd ∧
          (t.reg rd).toInt = Int.bmod (t.reg rd).toNat (2 ^ 32)

/-! ## Control transfer (spec/46_control_transfer.md). `P = pc - 4` -/

/-- BEQ and BNE: to `P + immB` when the condition holds, else to `P + 4`, nothing else changes (R181, R182). -/
def Obligations.EqualityBranches : Prop :=
  ∀ (rs1 rs2 : Reg) (off : BitVec 13) (s : State),
    let target := BitVec.ofInt 64 (s.pc.toNat - 4 + off.toInt)
    (branchOffsetEven off = true → decode (packB off rs2 rs1 0b000#3 0x63#7) = .ok (.beq rs1 rs2 off)) ∧
    (∃ t, exec (.beq rs1 rs2 off) s = .next t ∧
      s.OnlyJumps t (if s.reg rs1 = s.reg rs2 then target else s.pc)) ∧
    (branchOffsetEven off = true → decode (packB off rs2 rs1 0b001#3 0x63#7) = .ok (.bne rs1 rs2 off)) ∧
    (∃ t, exec (.bne rs1 rs2 off) s = .next t ∧
      s.OnlyJumps t (if s.reg rs1 = s.reg rs2 then s.pc else target))

/-- BLT and BGE, by signed integers (R183, R184). -/
def Obligations.SignedBranches : Prop :=
  ∀ (rs1 rs2 : Reg) (off : BitVec 13) (s : State),
    let target := BitVec.ofInt 64 (s.pc.toNat - 4 + off.toInt)
    (branchOffsetEven off = true → decode (packB off rs2 rs1 0b100#3 0x63#7) = .ok (.blt rs1 rs2 off)) ∧
    (∃ t, exec (.blt rs1 rs2 off) s = .next t ∧
      s.OnlyJumps t (if (s.reg rs1).toInt < (s.reg rs2).toInt then target else s.pc)) ∧
    (branchOffsetEven off = true → decode (packB off rs2 rs1 0b101#3 0x63#7) = .ok (.bge rs1 rs2 off)) ∧
    (∃ t, exec (.bge rs1 rs2 off) s = .next t ∧
      s.OnlyJumps t (if (s.reg rs2).toInt ≤ (s.reg rs1).toInt then target else s.pc))

/-- BLTU and BGEU, by unsigned integers (R185, R186). -/
def Obligations.UnsignedBranches : Prop :=
  ∀ (rs1 rs2 : Reg) (off : BitVec 13) (s : State),
    let target := BitVec.ofInt 64 (s.pc.toNat - 4 + off.toInt)
    (branchOffsetEven off = true → decode (packB off rs2 rs1 0b110#3 0x63#7) = .ok (.bltu rs1 rs2 off)) ∧
    (∃ t, exec (.bltu rs1 rs2 off) s = .next t ∧
      s.OnlyJumps t (if (s.reg rs1).toNat < (s.reg rs2).toNat then target else s.pc)) ∧
    (branchOffsetEven off = true → decode (packB off rs2 rs1 0b111#3 0x63#7) = .ok (.bgeu rs1 rs2 off)) ∧
    (∃ t, exec (.bgeu rs1 rs2 off) s = .next t ∧
      s.OnlyJumps t (if (s.reg rs2).toNat ≤ (s.reg rs1).toNat then target else s.pc))

/-- JALR and JAL: the link is `P + 4`, which is the pc during execute; JALR's target is the old `x[rs1]` plus the immediate with no bit cleared,
also when rd = rs1; JAL's is `P + immJ` (R187, R188; the link, the kept bit 0 and the read before the write are the spec's decisions D6, D7,
D8, log entry 11). -/
def Obligations.JumpsAndLinks : Prop :=
  ∀ (rd rs1 : Reg) (imm : BitVec 12) (off : BitVec 21) (s : State),
    decode (packI imm rs1 0b000#3 rd 0x67#7) = .ok (.jalr rd rs1 imm) ∧
    (∃ t, exec (.jalr rd rs1 imm) s = .next t ∧
      s.OnlyLinks t rd s.pc (BitVec.ofInt 64 ((s.reg rs1).toNat + imm.toInt))) ∧
    (jumpOffsetEven off = true → decode (packJ off rd 0x6f#7) = .ok (.jal rd off)) ∧
    (∃ t, exec (.jal rd off) s = .next t ∧
      s.OnlyLinks t rd s.pc (BitVec.ofInt 64 (s.pc.toNat - 4 + off.toInt)))

/-- Over a whole step from `P`, PC-relative values are relative to `P` itself, not to `P + 4`: a taken branch goes to `P + imm`, JAL goes to
`P + imm` and links `P + 4`, AUIPC writes `P + immU` (R101, R236; the link is D6, log entry 11). -/
def Obligations.StepsAreRelativeToTheOwnAddress : Prop :=
  ∀ (s : State), s.status = .running → InBounds s.cfg s.pc 4 →
    (∀ rs1 rs2 off, s.bytesValue s.pc.toNat 4 = (encode (.beq rs1 rs2 off)).toNat → branchOffsetEven off = true →
      s.reg rs1 = s.reg rs2 → ∃ t, step s = .next t ∧ s.OnlyJumps t (s.pc + off.signExtend 64)) ∧
    (∀ rd off, s.bytesValue s.pc.toNat 4 = (encode (.jal rd off)).toNat → jumpOffsetEven off = true →
      ∃ t, step s = .next t ∧ s.OnlyLinks t rd (s.pc + 4#64) (s.pc + off.signExtend 64)) ∧
    (∀ rd imm20, s.bytesValue s.pc.toNat 4 = (encode (.auipc rd imm20)).toNat →
      ∃ t, step s = .next t ∧ s.OnlyLinks t rd (s.pc + immU imm20) (s.pc + 4#64))

/-! ## The cycle (spec/40_engine.md) and the faults (spec/60_exceptions.md) -/

/-- A step of a running block is fetch, advance, execute: a fetch fault leaves everything but the status as it was; a word that is no
instruction leaves `pc = P + 4` and everything else but the status as it was; any other word is performed with the pc at `P + 4` (R100; the pc
after an execute fault is the spec's decision D19, log entry 4). -/
def Obligations.StepIsFetchAdvanceExecute : Prop :=
  ∀ s : State, s.status = .running →
    let w := BitVec.ofNat 32 (s.bytesValue s.pc.toNat 4)
    let s4 := { s with pc := s.pc + 4#64 }
    (¬ InBounds s.cfg s.pc 4 → ∃ t, step s = .next t ∧ s.OnlyFaults t (.outOfBounds s.pc 4)) ∧
    (InBounds s.cfg s.pc 4 → (∀ i, decode w ≠ .ok i) →
      ∃ t, step s = .next t ∧ s4.OnlyFaults t (.unimplementedInstruction w)) ∧
    (InBounds s.cfg s.pc 4 → ∀ i, decode w = .ok i → step s = exec i s4)

/-- When the four bytes at the pc are the word of a well-formed instruction, a step is that instruction performed with the pc moved past the
word. -/
def Obligations.StepRunsTheEncodedInstruction : Prop :=
  ∀ (s : State) (i : Instr), s.status = .running → InBounds s.cfg s.pc 4 → i.wellFormed = true →
    s.bytesValue s.pc.toNat 4 = (encode i).toNat → step s = exec i { s with pc := s.pc + 4#64 }

/-- The machine refuses nothing; it stops only when a fault has been recorded, with that fault; a running block always takes a step (R31,
R110; that a recorded fault stops the run is the spec's decision D17, and that the faulting cycle is itself a next state is log entry 4). -/
def Obligations.StepStopsExactlyWhenFaulted : Prop :=
  ∀ s : State,
    (∀ r, step s ≠ .refused r) ∧
    (∀ f, step s = .fault f ↔ s.status = .faulted f) ∧
    (s.status = .running → ∃ t, step s = .next t)

/-- Every instruction of the dispatch table may execute in any state, and none of them changes the configuration (R211). -/
def Obligations.EveryInstructionExecutesInEveryState : Prop :=
  ∀ (i : Instr) (s : State), ∃ t, exec i s = .next t ∧ t.cfg = s.cfg

/-- An instruction that faults has no effect: registers, memory and pc are as before it, the fault is `OutOfBounds`, and only loads and stores
can raise it (R104; the pc is the spec's decision D19, log entry 4). -/
def Obligations.FaultingInstructionsHaveNoEffect : Prop :=
  ∀ (i : Instr) (s t : State), s.status = .running → exec i s = .next t → t.status ≠ .running →
    (i.isLoad || i.isStore) = true ∧ ∃ a n, s.OnlyFaults t (.outOfBounds a n)

/-- An instruction writes at most its destination register (R22). -/
def Obligations.OnlyTheDestinationRegisterChanges : Prop :=
  ∀ (i : Instr) (s t : State), exec i s = .next t → ∀ r, i.dest ≠ some r → t.reg r = s.reg r

/-- No instruction but a store changes any byte of memory (R49). -/
def Obligations.OnlyStoresChangeMemory : Prop :=
  ∀ (i : Instr) (s t : State), exec i s = .next t → i.isStore = false → ∀ a, t.readByte a = s.readByte a

/-- An instruction that is no control transfer leaves the pc at `P + 4` (R106). -/
def Obligations.OnlyControlTransfersMoveThePc : Prop :=
  ∀ (i : Instr) (s t : State), exec i s = .next t → i.isControlTransfer = false → t.pc = s.pc

/-- No step raises `UnsupportedWidth` (R45, R202). -/
def Obligations.NoStepRaisesUnsupportedWidth : Prop :=
  ∀ (s t : State) (width : BitVec 8), step s = .next t → t.status ≠ .faulted (.unsupportedWidth width)

/-! ## Invariants -/

/-- Every step keeps the invariant: memory canonical and inside the RAM window, the hardwired register's slot zero, the configuration valid,
any recorded fault true of the access or the word it names. -/
def Obligations.StepKeepsTheInvariant : Prop :=
  ∀ s t : State, s.Inv → step s = .next t → t.Inv

/-- The reset state meets the invariant. The values of `MEM_BASE` and of unlisted bytes in it are the model's (log entries 1, 3). -/
def Obligations.ResetMeetsTheInvariant : Prop := State.reset.Inv

/-- `initialize` reaches the invariant for every valid configuration, every `INIT_MEM` and every image that fits. -/
def Obligations.InitializeMeetsTheInvariant : Prop :=
  ∀ (c : Config) (initMem : Memory) (image : List Byte), c.Valid → initMem.wf → initMem.InWindow c → image.length ≤ c.memSize →
    ∃ t, hostInitialize c initMem image = .next t ∧ t.Inv

/-- No step changes `MEM_BASE` or `MEM_SIZE` (R9, R33: they are configuration, not state). -/
def Obligations.StepKeepsTheConfiguration : Prop :=
  ∀ s t : State, step s = .next t → t.cfg = s.cfg

/-! ## Reset and the host (spec/70_reset_and_hazards.md, spec/60_exceptions.md section 7) -/

/-- What creation and `initialize` leave in every piece of state, for every configuration, `INIT_MEM` and image; an image longer than
`MEM_SIZE` is refused (R32, R230, R231; `INIT_MEM` and the refusal are the spec's decision D16, log entries 3, 8). -/
def Obligations.InitializeSetsEveryPieceOfState : Prop :=
  ∀ (c : Config) (initMem : Memory) (image : List Byte),
    (∀ r, (State.created c initMem).reg r = 0#64) ∧ (State.created c initMem).pc = c.memBase ∧
    (image.length ≤ c.memSize → ∃ t, hostInitialize c initMem image = .next t ∧
      (∀ r, t.reg r = if r = 2 then c.memBase + BitVec.ofNat 64 c.memSize else 0#64) ∧
      t.pc = c.memBase ∧ t.status = .running ∧ t.cfg = c ∧
      (∀ k (h : k < image.length), t.readByte (c.memBase.toNat + k) = image[k]) ∧
      (∀ a, a < c.memBase.toNat ∨ c.memBase.toNat + image.length ≤ a → t.readByte a = initMem.read a)) ∧
    (c.memSize < image.length → hostInitialize c initMem image = .refused (.imageTooLong image.length))

/-- The first cycle after `initialize` fetches the first four bytes of the image, at `MEM_BASE`, little-endian (R232). -/
def Obligations.FirstCycleRunsTheFirstImageWord : Prop :=
  ∀ (c : Config) (initMem : Memory) (b0 b1 b2 b3 : Byte) (rest : List Byte) (i : Instr),
    (b0 :: b1 :: b2 :: b3 :: rest).length ≤ c.memSize → decode (b3 ++ b2 ++ b1 ++ b0) = .ok i →
    ∃ t, hostInitialize c initMem (b0 :: b1 :: b2 :: b3 :: rest) = .next t ∧
      step t = exec i { t with pc := c.memBase + 4#64 }

/-- The stack pointer after `initialize` is one past the last RAM byte: an access of any width at `0(x2)` faults, while the doubleword below it
is accessible (R233). -/
def Obligations.InitialStackPointerIsOnePastRam : Prop :=
  ∀ (c : Config) (initMem : Memory) (image : List Byte) (t : State), c.Valid → hostInitialize c initMem image = .next t →
    (∀ n ∈ [1, 2, 4, 8], ¬ InBounds t.cfg (t.reg 2) n) ∧
    (∀ n ∈ [1, 2, 4, 8], n ≤ c.memSize → InBounds t.cfg (t.reg 2 - BitVec.ofNat 64 n) n)

/-- `dump_registers()` gives the 32 pairs in index order, `(0, 0)` first (R224; x0 as 0 is the spec's decision D9, log entry 5). -/
def Obligations.DumpRegistersListsAllInOrder : Prop :=
  ∀ s : State, (dumpRegisters s).length = 32 ∧ (dumpRegisters s).head? = some (0, 0#64) ∧
    ∀ r : Reg, (dumpRegisters s)[r.val]? = some (r, s.reg r)

/-- A store is seen by the very next fetch: when the instruction at `P` is a SW that stores the word of a well-formed instruction at `P + 4`,
the next step performs that instruction (R57). -/
def Obligations.StoredInstructionRunsNext : Prop :=
  ∀ (s : State) (rs2 rs1 : Reg) (imm : BitVec 12) (i : Instr), s.status = .running →
    InBounds s.cfg s.pc 4 → InBounds s.cfg (s.pc + 4#64) 4 →
    s.bytesValue s.pc.toNat 4 = (encode (.sw rs2 rs1 imm)).toNat →
    storeAddr s rs1 imm = s.pc + 4#64 → i.wellFormed = true → (s.reg rs2).toNat % 2 ^ 32 = (encode i).toNat →
    ∃ t, step s = .next t ∧ t.pc = s.pc + 4#64 ∧ step t = exec i { t with pc := s.pc + 8#64 }

/-- A word placed where the next instruction is fetched is the instruction the next step performs (log entry 6: it stands for the host's loading
of an image). -/
def Obligations.PlacedWordRunsNext : Prop :=
  ∀ (s : State) (w : Nat) (i : Instr), s.status = .running → InBounds s.cfg s.pc 4 → decodeTableWord 32 w = some i →
    step (s.withFetchWord 32 w) = exec i { s.withFetchWord 32 w with pc := s.pc + 4#64 }
end

