-- ==== Sys2Proof/Laws/Arith.lean ====
section
/-! SUPPORT. The machine's operand forms and arithmetic as integer arithmetic (spec/00_scope.md R11, R12): each operation computed exactly on
integers and narrowed once. -/

namespace Sys2Proof.Machine

/-- A concatenation as a sum. -/
theorem toNat_append_add {m n : Nat} (x : BitVec m) (y : BitVec n) : (x ++ y).toNat = x.toNat * 2 ^ n + y.toNat := by
  rw [BitVec.toNat_append, ← Nat.shiftLeft_add_eq_or_of_lt y.isLt, Nat.shiftLeft_eq]

/-- Sign extension is the signed value narrowed to 64 bits. -/
theorem signExtend_eq {n : Nat} (v : BitVec n) : v.signExtend 64 = BitVec.ofInt 64 v.toInt := rfl

/-- `sext_N` on integers. -/
theorem sext_eq (n : Nat) (v : Word) : sext n v = BitVec.ofInt 64 (Int.bmod v.toNat (2 ^ n)) := by
  rw [sext, signExtend_eq, BitVec.toInt_setWidth]

/-- `zext_N` on integers, for N up to 64. -/
theorem zext_eq (n : Nat) (hn : n ≤ 64) (v : Word) : zext n v = BitVec.ofNat 64 (v.toNat % 2 ^ n) := by
  have h : v.toNat % 2 ^ n < 2 ^ 64 :=
    Nat.lt_of_lt_of_le (Nat.mod_lt _ (Nat.two_pow_pos n)) (Nat.pow_le_pow_right (by decide) hn)
  refine BitVec.eq_of_toNat_eq ?_
  rw [zext, BitVec.toNat_setWidth, BitVec.toNat_setWidth, BitVec.toNat_ofNat]

/-- A sum with a sign-extended immediate, on integers. -/
theorem add_signExtend_eq {n : Nat} (v : Word) (imm : BitVec n) :
    v + imm.signExtend 64 = BitVec.ofInt 64 (v.toNat + imm.toInt) := by
  rw [signExtend_eq, BitVec.ofInt_add, BitVec.ofInt_natCast, BitVec.ofNat_toNat, BitVec.setWidth_eq]

/-- The register shift amounts are remainders. -/
theorem regShamt6_eq (v : Word) : regShamt6 v = v.toNat % 64 := by simp [regShamt6]

theorem regShamt5_eq (v : Word) : regShamt5 v = v.toNat % 32 := by simp [regShamt5]

theorem shl_eq (v : Word) (n : Nat) : shl v n = BitVec.ofNat 64 (v.toNat * 2 ^ n) := by
  refine BitVec.eq_of_toNat_eq ?_
  rw [shl, BitVec.toNat_shiftLeft, BitVec.toNat_ofNat, Nat.shiftLeft_eq]

theorem shrLogical_eq (v : Word) (n : Nat) : shrLogical v n = BitVec.ofNat 64 (v.toNat / 2 ^ n) := by
  refine BitVec.eq_of_toNat_eq ?_
  rw [shrLogical, BitVec.toNat_ushiftRight, BitVec.toNat_ofNat, Nat.shiftRight_eq_div_pow,
    Nat.mod_eq_of_lt (Nat.lt_of_le_of_lt (Nat.div_le_self _ _) v.isLt)]

theorem shrArith_eq (v : Word) (n : Nat) : shrArith v n = BitVec.ofInt 64 (v.toInt / 2 ^ n) := by
  have h : v.toInt / 2 ^ n = v.toInt >>> n := by rw [Int.shiftRight_eq_div_pow]; simp
  rw [shrArith, h, ← BitVec.toInt_sshiftRight, BitVec.ofInt_toInt]

/-- A W result on integers: the 32-bit value taken as signed. -/
theorem wResult_eq (v : BitVec 32) : wResult v = BitVec.ofInt 64 v.toInt := rfl

theorem toInt_lowWord (v : Word) : (lowWord v).toInt = Int.bmod v.toNat (2 ^ 32) := BitVec.toInt_setWidth v

theorem toNat_lowWord (v : Word) : (lowWord v).toNat = v.toNat % 2 ^ 32 := BitVec.toNat_setWidth 32 v

/-- A value known modulo 2^32 has a known W result. -/
theorem wResult_of_emod {v : BitVec 32} {k : Int} (h : (v.toNat : Int) % 2 ^ 32 = k % 2 ^ 32) :
    wResult v = BitVec.ofInt 64 (Int.bmod k (2 ^ 32)) := by
  have h' : (v.toNat : Int).bmod (2 ^ 32) = k.bmod (2 ^ 32) := by
    rw [← Int.emod_bmod, ← Int.emod_bmod (x := k)]
    exact congrArg (fun z : Int => z.bmod (2 ^ 32)) h
  rw [wResult_eq, BitVec.toInt_eq_toNat_bmod, h']

end Sys2Proof.Machine
end

