-- ==== Sys2Proof/Laws/Decode.lean ====
section
/-! SUPPORT. What each format's packing holds in each field (spec/30_encoding.md R70), and that a word is the packing of its own fields.
The round trips of the decoder and the encoder rest on these. -/

namespace Sys2Proof

theorem regField_fieldRd (w : InstrWord) : regField (fieldRd w) = w.extractLsb' 7 5 := rfl

theorem regField_fieldRs1 (w : InstrWord) : regField (fieldRs1 w) = w.extractLsb' 15 5 := rfl

theorem regField_fieldRs2 (w : InstrWord) : regField (fieldRs2 w) = w.extractLsb' 20 5 := rfl

/-- A register is determined by its field. -/
theorem reg_eq_of_field {b : BitVec 5} {r : Reg} (h : b = regField r) : b.toFin = r := congrArg BitVec.toFin h

/-- The bits of a packed word, field by field. -/
theorem getLsbD_packR (f7 : BitVec 7) (rs2 rs1 : Reg) (f3 : BitVec 3) (rd : Reg) (op : BitVec 7) (i : Nat) :
    (packR f7 rs2 rs1 f3 rd op).getLsbD i =
      (f7 ++ regField rs2 ++ regField rs1 ++ f3 ++ regField rd ++ op).getLsbD i := rfl

theorem opcode_packR (f7 : BitVec 7) (rs2 rs1 : Reg) (f3 : BitVec 3) (rd : Reg) (op : BitVec 7) :
    opcode (packR f7 rs2 rs1 f3 rd op) = op := by
  refine BitVec.eq_of_getLsbD_eq fun i hi => ?_
  simp only [opcode, BitVec.getLsbD_extractLsb', getLsbD_packR, BitVec.getLsbD_append]
  interval_cases i <;> simp

theorem fieldRd_packR (f7 : BitVec 7) (rs2 rs1 : Reg) (f3 : BitVec 3) (rd : Reg) (op : BitVec 7) :
    fieldRd (packR f7 rs2 rs1 f3 rd op) = rd := by
  refine reg_eq_of_field (BitVec.eq_of_getLsbD_eq fun i hi => ?_)
  simp only [BitVec.getLsbD_extractLsb', getLsbD_packR, BitVec.getLsbD_append]
  interval_cases i <;> simp

theorem funct3_packR (f7 : BitVec 7) (rs2 rs1 : Reg) (f3 : BitVec 3) (rd : Reg) (op : BitVec 7) :
    funct3 (packR f7 rs2 rs1 f3 rd op) = f3 := by
  refine BitVec.eq_of_getLsbD_eq fun i hi => ?_
  simp only [funct3, BitVec.getLsbD_extractLsb', getLsbD_packR, BitVec.getLsbD_append]
  interval_cases i <;> simp

theorem fieldRs1_packR (f7 : BitVec 7) (rs2 rs1 : Reg) (f3 : BitVec 3) (rd : Reg) (op : BitVec 7) :
    fieldRs1 (packR f7 rs2 rs1 f3 rd op) = rs1 := by
  refine reg_eq_of_field (BitVec.eq_of_getLsbD_eq fun i hi => ?_)
  simp only [BitVec.getLsbD_extractLsb', getLsbD_packR, BitVec.getLsbD_append]
  interval_cases i <;> simp

theorem fieldRs2_packR (f7 : BitVec 7) (rs2 rs1 : Reg) (f3 : BitVec 3) (rd : Reg) (op : BitVec 7) :
    fieldRs2 (packR f7 rs2 rs1 f3 rd op) = rs2 := by
  refine reg_eq_of_field (BitVec.eq_of_getLsbD_eq fun i hi => ?_)
  simp only [BitVec.getLsbD_extractLsb', getLsbD_packR, BitVec.getLsbD_append]
  interval_cases i <;> simp

theorem funct7_packR (f7 : BitVec 7) (rs2 rs1 : Reg) (f3 : BitVec 3) (rd : Reg) (op : BitVec 7) :
    funct7 (packR f7 rs2 rs1 f3 rd op) = f7 := by
  refine BitVec.eq_of_getLsbD_eq fun i hi => ?_
  simp only [funct7, BitVec.getLsbD_extractLsb', getLsbD_packR, BitVec.getLsbD_append]
  interval_cases i <;> simp

/-- A word is the packing of its own fields. -/
theorem packR_fields (w : InstrWord) : packR (funct7 w) (fieldRs2 w) (fieldRs1 w) (funct3 w) (fieldRd w) (opcode w) = w := by
  refine BitVec.eq_of_getLsbD_eq fun i hi => ?_
  rw [getLsbD_packR]
  simp only [BitVec.getLsbD_append, BitVec.getLsbD_extractLsb', funct7, funct3, opcode, regField_fieldRd, regField_fieldRs1, regField_fieldRs2]
  interval_cases i <;> simp

/-- The bits of a packed word, field by field. -/
theorem getLsbD_packI (imm : BitVec 12) (rs1 : Reg) (f3 : BitVec 3) (rd : Reg) (op : BitVec 7) (i : Nat) :
    (packI imm rs1 f3 rd op).getLsbD i =
      (imm ++ regField rs1 ++ f3 ++ regField rd ++ op).getLsbD i := rfl

theorem opcode_packI (imm : BitVec 12) (rs1 : Reg) (f3 : BitVec 3) (rd : Reg) (op : BitVec 7) :
    opcode (packI imm rs1 f3 rd op) = op := by
  refine BitVec.eq_of_getLsbD_eq fun i hi => ?_
  simp only [opcode, BitVec.getLsbD_extractLsb', getLsbD_packI, BitVec.getLsbD_append]
  interval_cases i <;> simp

theorem fieldRd_packI (imm : BitVec 12) (rs1 : Reg) (f3 : BitVec 3) (rd : Reg) (op : BitVec 7) :
    fieldRd (packI imm rs1 f3 rd op) = rd := by
  refine reg_eq_of_field (BitVec.eq_of_getLsbD_eq fun i hi => ?_)
  simp only [BitVec.getLsbD_extractLsb', getLsbD_packI, BitVec.getLsbD_append]
  interval_cases i <;> simp

theorem funct3_packI (imm : BitVec 12) (rs1 : Reg) (f3 : BitVec 3) (rd : Reg) (op : BitVec 7) :
    funct3 (packI imm rs1 f3 rd op) = f3 := by
  refine BitVec.eq_of_getLsbD_eq fun i hi => ?_
  simp only [funct3, BitVec.getLsbD_extractLsb', getLsbD_packI, BitVec.getLsbD_append]
  interval_cases i <;> simp

theorem fieldRs1_packI (imm : BitVec 12) (rs1 : Reg) (f3 : BitVec 3) (rd : Reg) (op : BitVec 7) :
    fieldRs1 (packI imm rs1 f3 rd op) = rs1 := by
  refine reg_eq_of_field (BitVec.eq_of_getLsbD_eq fun i hi => ?_)
  simp only [BitVec.getLsbD_extractLsb', getLsbD_packI, BitVec.getLsbD_append]
  interval_cases i <;> simp

theorem fieldImmI_packI (imm : BitVec 12) (rs1 : Reg) (f3 : BitVec 3) (rd : Reg) (op : BitVec 7) :
    fieldImmI (packI imm rs1 f3 rd op) = imm := by
  refine BitVec.eq_of_getLsbD_eq fun i hi => ?_
  simp only [fieldImmI, BitVec.getLsbD_extractLsb', getLsbD_packI, BitVec.getLsbD_append]
  interval_cases i <;> simp

/-- A word is the packing of its own fields. -/
theorem packI_fields (w : InstrWord) : packI (fieldImmI w) (fieldRs1 w) (funct3 w) (fieldRd w) (opcode w) = w := by
  refine BitVec.eq_of_getLsbD_eq fun i hi => ?_
  rw [getLsbD_packI]
  simp only [BitVec.getLsbD_append, BitVec.getLsbD_extractLsb', funct3, opcode, fieldImmI, regField_fieldRd, regField_fieldRs1]
  interval_cases i <;> simp

/-- The bits of a packed word, field by field. -/
theorem getLsbD_packShift64 (f6 : BitVec 6) (shamt : BitVec 6) (rs1 : Reg) (f3 : BitVec 3) (rd : Reg) (op : BitVec 7) (i : Nat) :
    (packShift64 f6 shamt rs1 f3 rd op).getLsbD i =
      (f6 ++ shamt ++ regField rs1 ++ f3 ++ regField rd ++ op).getLsbD i := rfl

theorem opcode_packShift64 (f6 : BitVec 6) (shamt : BitVec 6) (rs1 : Reg) (f3 : BitVec 3) (rd : Reg) (op : BitVec 7) :
    opcode (packShift64 f6 shamt rs1 f3 rd op) = op := by
  refine BitVec.eq_of_getLsbD_eq fun i hi => ?_
  simp only [opcode, BitVec.getLsbD_extractLsb', getLsbD_packShift64, BitVec.getLsbD_append]
  interval_cases i <;> simp

theorem fieldRd_packShift64 (f6 : BitVec 6) (shamt : BitVec 6) (rs1 : Reg) (f3 : BitVec 3) (rd : Reg) (op : BitVec 7) :
    fieldRd (packShift64 f6 shamt rs1 f3 rd op) = rd := by
  refine reg_eq_of_field (BitVec.eq_of_getLsbD_eq fun i hi => ?_)
  simp only [BitVec.getLsbD_extractLsb', getLsbD_packShift64, BitVec.getLsbD_append]
  interval_cases i <;> simp

theorem funct3_packShift64 (f6 : BitVec 6) (shamt : BitVec 6) (rs1 : Reg) (f3 : BitVec 3) (rd : Reg) (op : BitVec 7) :
    funct3 (packShift64 f6 shamt rs1 f3 rd op) = f3 := by
  refine BitVec.eq_of_getLsbD_eq fun i hi => ?_
  simp only [funct3, BitVec.getLsbD_extractLsb', getLsbD_packShift64, BitVec.getLsbD_append]
  interval_cases i <;> simp

theorem fieldRs1_packShift64 (f6 : BitVec 6) (shamt : BitVec 6) (rs1 : Reg) (f3 : BitVec 3) (rd : Reg) (op : BitVec 7) :
    fieldRs1 (packShift64 f6 shamt rs1 f3 rd op) = rs1 := by
  refine reg_eq_of_field (BitVec.eq_of_getLsbD_eq fun i hi => ?_)
  simp only [BitVec.getLsbD_extractLsb', getLsbD_packShift64, BitVec.getLsbD_append]
  interval_cases i <;> simp

theorem fieldShamt6_packShift64 (f6 : BitVec 6) (shamt : BitVec 6) (rs1 : Reg) (f3 : BitVec 3) (rd : Reg) (op : BitVec 7) :
    fieldShamt6 (packShift64 f6 shamt rs1 f3 rd op) = shamt := by
  refine BitVec.eq_of_getLsbD_eq fun i hi => ?_
  simp only [fieldShamt6, BitVec.getLsbD_extractLsb', getLsbD_packShift64, BitVec.getLsbD_append]
  interval_cases i <;> simp

theorem funct6_packShift64 (f6 : BitVec 6) (shamt : BitVec 6) (rs1 : Reg) (f3 : BitVec 3) (rd : Reg) (op : BitVec 7) :
    funct6 (packShift64 f6 shamt rs1 f3 rd op) = f6 := by
  refine BitVec.eq_of_getLsbD_eq fun i hi => ?_
  simp only [funct6, BitVec.getLsbD_extractLsb', getLsbD_packShift64, BitVec.getLsbD_append]
  interval_cases i <;> simp

/-- A word is the packing of its own fields. -/
theorem packShift64_fields (w : InstrWord) : packShift64 (funct6 w) (fieldShamt6 w) (fieldRs1 w) (funct3 w) (fieldRd w) (opcode w) = w := by
  refine BitVec.eq_of_getLsbD_eq fun i hi => ?_
  rw [getLsbD_packShift64]
  simp only [BitVec.getLsbD_append, BitVec.getLsbD_extractLsb', funct6, funct3, opcode, fieldShamt6, regField_fieldRd, regField_fieldRs1]
  interval_cases i <;> simp

/-- The bits of a packed word, field by field. -/
theorem getLsbD_packShift32 (f7 : BitVec 7) (shamt : BitVec 5) (rs1 : Reg) (f3 : BitVec 3) (rd : Reg) (op : BitVec 7) (i : Nat) :
    (packShift32 f7 shamt rs1 f3 rd op).getLsbD i =
      (f7 ++ shamt ++ regField rs1 ++ f3 ++ regField rd ++ op).getLsbD i := rfl

theorem opcode_packShift32 (f7 : BitVec 7) (shamt : BitVec 5) (rs1 : Reg) (f3 : BitVec 3) (rd : Reg) (op : BitVec 7) :
    opcode (packShift32 f7 shamt rs1 f3 rd op) = op := by
  refine BitVec.eq_of_getLsbD_eq fun i hi => ?_
  simp only [opcode, BitVec.getLsbD_extractLsb', getLsbD_packShift32, BitVec.getLsbD_append]
  interval_cases i <;> simp

theorem fieldRd_packShift32 (f7 : BitVec 7) (shamt : BitVec 5) (rs1 : Reg) (f3 : BitVec 3) (rd : Reg) (op : BitVec 7) :
    fieldRd (packShift32 f7 shamt rs1 f3 rd op) = rd := by
  refine reg_eq_of_field (BitVec.eq_of_getLsbD_eq fun i hi => ?_)
  simp only [BitVec.getLsbD_extractLsb', getLsbD_packShift32, BitVec.getLsbD_append]
  interval_cases i <;> simp

theorem funct3_packShift32 (f7 : BitVec 7) (shamt : BitVec 5) (rs1 : Reg) (f3 : BitVec 3) (rd : Reg) (op : BitVec 7) :
    funct3 (packShift32 f7 shamt rs1 f3 rd op) = f3 := by
  refine BitVec.eq_of_getLsbD_eq fun i hi => ?_
  simp only [funct3, BitVec.getLsbD_extractLsb', getLsbD_packShift32, BitVec.getLsbD_append]
  interval_cases i <;> simp

theorem fieldRs1_packShift32 (f7 : BitVec 7) (shamt : BitVec 5) (rs1 : Reg) (f3 : BitVec 3) (rd : Reg) (op : BitVec 7) :
    fieldRs1 (packShift32 f7 shamt rs1 f3 rd op) = rs1 := by
  refine reg_eq_of_field (BitVec.eq_of_getLsbD_eq fun i hi => ?_)
  simp only [BitVec.getLsbD_extractLsb', getLsbD_packShift32, BitVec.getLsbD_append]
  interval_cases i <;> simp

theorem fieldShamt5_packShift32 (f7 : BitVec 7) (shamt : BitVec 5) (rs1 : Reg) (f3 : BitVec 3) (rd : Reg) (op : BitVec 7) :
    fieldShamt5 (packShift32 f7 shamt rs1 f3 rd op) = shamt := by
  refine BitVec.eq_of_getLsbD_eq fun i hi => ?_
  simp only [fieldShamt5, BitVec.getLsbD_extractLsb', getLsbD_packShift32, BitVec.getLsbD_append]
  interval_cases i <;> simp

theorem funct7_packShift32 (f7 : BitVec 7) (shamt : BitVec 5) (rs1 : Reg) (f3 : BitVec 3) (rd : Reg) (op : BitVec 7) :
    funct7 (packShift32 f7 shamt rs1 f3 rd op) = f7 := by
  refine BitVec.eq_of_getLsbD_eq fun i hi => ?_
  simp only [funct7, BitVec.getLsbD_extractLsb', getLsbD_packShift32, BitVec.getLsbD_append]
  interval_cases i <;> simp

/-- A word is the packing of its own fields. -/
theorem packShift32_fields (w : InstrWord) : packShift32 (funct7 w) (fieldShamt5 w) (fieldRs1 w) (funct3 w) (fieldRd w) (opcode w) = w := by
  refine BitVec.eq_of_getLsbD_eq fun i hi => ?_
  rw [getLsbD_packShift32]
  simp only [BitVec.getLsbD_append, BitVec.getLsbD_extractLsb', funct7, funct3, opcode, fieldShamt5, regField_fieldRd, regField_fieldRs1]
  interval_cases i <;> simp

/-- The bits of a packed word, field by field. -/
theorem getLsbD_packS (imm : BitVec 12) (rs2 rs1 : Reg) (f3 : BitVec 3) (op : BitVec 7) (i : Nat) :
    (packS imm rs2 rs1 f3 op).getLsbD i =
      (imm.extractLsb' 5 7 ++ regField rs2 ++ regField rs1 ++ f3 ++ imm.extractLsb' 0 5 ++ op).getLsbD i := rfl

theorem opcode_packS (imm : BitVec 12) (rs2 rs1 : Reg) (f3 : BitVec 3) (op : BitVec 7) :
    opcode (packS imm rs2 rs1 f3 op) = op := by
  refine BitVec.eq_of_getLsbD_eq fun i hi => ?_
  simp only [opcode, BitVec.getLsbD_extractLsb', getLsbD_packS, BitVec.getLsbD_append]
  interval_cases i <;> simp

theorem funct3_packS (imm : BitVec 12) (rs2 rs1 : Reg) (f3 : BitVec 3) (op : BitVec 7) :
    funct3 (packS imm rs2 rs1 f3 op) = f3 := by
  refine BitVec.eq_of_getLsbD_eq fun i hi => ?_
  simp only [funct3, BitVec.getLsbD_extractLsb', getLsbD_packS, BitVec.getLsbD_append]
  interval_cases i <;> simp

theorem fieldRs1_packS (imm : BitVec 12) (rs2 rs1 : Reg) (f3 : BitVec 3) (op : BitVec 7) :
    fieldRs1 (packS imm rs2 rs1 f3 op) = rs1 := by
  refine reg_eq_of_field (BitVec.eq_of_getLsbD_eq fun i hi => ?_)
  simp only [BitVec.getLsbD_extractLsb', getLsbD_packS, BitVec.getLsbD_append]
  interval_cases i <;> simp

theorem fieldRs2_packS (imm : BitVec 12) (rs2 rs1 : Reg) (f3 : BitVec 3) (op : BitVec 7) :
    fieldRs2 (packS imm rs2 rs1 f3 op) = rs2 := by
  refine reg_eq_of_field (BitVec.eq_of_getLsbD_eq fun i hi => ?_)
  simp only [BitVec.getLsbD_extractLsb', getLsbD_packS, BitVec.getLsbD_append]
  interval_cases i <;> simp

theorem fieldImmS_packS (imm : BitVec 12) (rs2 rs1 : Reg) (f3 : BitVec 3) (op : BitVec 7) :
    fieldImmS (packS imm rs2 rs1 f3 op) = imm := by
  refine BitVec.eq_of_getLsbD_eq fun i hi => ?_
  simp only [fieldImmS, BitVec.getLsbD_extractLsb', getLsbD_packS, BitVec.getLsbD_append]
  interval_cases i <;> simp

/-- A word is the packing of its own fields. -/
theorem packS_fields (w : InstrWord) : packS (fieldImmS w) (fieldRs2 w) (fieldRs1 w) (funct3 w) (opcode w) = w := by
  refine BitVec.eq_of_getLsbD_eq fun i hi => ?_
  rw [getLsbD_packS]
  simp only [BitVec.getLsbD_append, BitVec.getLsbD_extractLsb', funct3, opcode, fieldImmS, regField_fieldRs1, regField_fieldRs2]
  interval_cases i <;> simp

/-- The bits of a packed word, field by field. -/
theorem getLsbD_packB (off : BitVec 13) (rs2 rs1 : Reg) (f3 : BitVec 3) (op : BitVec 7) (i : Nat) :
    (packB off rs2 rs1 f3 op).getLsbD i =
      (off.extractLsb' 12 1 ++ off.extractLsb' 5 6 ++ regField rs2 ++ regField rs1 ++ f3 ++ off.extractLsb' 1 4 ++ off.extractLsb' 11 1 ++ op).getLsbD i := rfl

theorem opcode_packB (off : BitVec 13) (rs2 rs1 : Reg) (f3 : BitVec 3) (op : BitVec 7) :
    opcode (packB off rs2 rs1 f3 op) = op := by
  refine BitVec.eq_of_getLsbD_eq fun i hi => ?_
  simp only [opcode, BitVec.getLsbD_extractLsb', getLsbD_packB, BitVec.getLsbD_append]
  interval_cases i <;> simp

theorem funct3_packB (off : BitVec 13) (rs2 rs1 : Reg) (f3 : BitVec 3) (op : BitVec 7) :
    funct3 (packB off rs2 rs1 f3 op) = f3 := by
  refine BitVec.eq_of_getLsbD_eq fun i hi => ?_
  simp only [funct3, BitVec.getLsbD_extractLsb', getLsbD_packB, BitVec.getLsbD_append]
  interval_cases i <;> simp

theorem fieldRs1_packB (off : BitVec 13) (rs2 rs1 : Reg) (f3 : BitVec 3) (op : BitVec 7) :
    fieldRs1 (packB off rs2 rs1 f3 op) = rs1 := by
  refine reg_eq_of_field (BitVec.eq_of_getLsbD_eq fun i hi => ?_)
  simp only [BitVec.getLsbD_extractLsb', getLsbD_packB, BitVec.getLsbD_append]
  interval_cases i <;> simp

theorem fieldRs2_packB (off : BitVec 13) (rs2 rs1 : Reg) (f3 : BitVec 3) (op : BitVec 7) :
    fieldRs2 (packB off rs2 rs1 f3 op) = rs2 := by
  refine reg_eq_of_field (BitVec.eq_of_getLsbD_eq fun i hi => ?_)
  simp only [BitVec.getLsbD_extractLsb', getLsbD_packB, BitVec.getLsbD_append]
  interval_cases i <;> simp

theorem fieldImmB_packB (off : BitVec 13) (rs2 rs1 : Reg) (f3 : BitVec 3) (op : BitVec 7) (h : branchOffsetEven off) :
    fieldImmB (packB off rs2 rs1 f3 op) = off := by
  have h0 : off[0] = false := by simpa [branchOffsetEven] using h
  refine BitVec.eq_of_getLsbD_eq fun i hi => ?_
  simp only [fieldImmB, BitVec.getLsbD_extractLsb', getLsbD_packB, BitVec.getLsbD_append]
  interval_cases i <;> simp [h0]

/-- A word is the packing of its own fields. -/
theorem packB_fields (w : InstrWord) : packB (fieldImmB w) (fieldRs2 w) (fieldRs1 w) (funct3 w) (opcode w) = w := by
  refine BitVec.eq_of_getLsbD_eq fun i hi => ?_
  rw [getLsbD_packB]
  simp only [BitVec.getLsbD_append, BitVec.getLsbD_extractLsb', funct3, opcode, fieldImmB, regField_fieldRs1, regField_fieldRs2]
  interval_cases i <;> simp

/-- The bits of a packed word, field by field. -/
theorem getLsbD_packU (imm20 : BitVec 20) (rd : Reg) (op : BitVec 7) (i : Nat) :
    (packU imm20 rd op).getLsbD i =
      (imm20 ++ regField rd ++ op).getLsbD i := rfl

theorem opcode_packU (imm20 : BitVec 20) (rd : Reg) (op : BitVec 7) :
    opcode (packU imm20 rd op) = op := by
  refine BitVec.eq_of_getLsbD_eq fun i hi => ?_
  simp only [opcode, BitVec.getLsbD_extractLsb', getLsbD_packU, BitVec.getLsbD_append]
  interval_cases i <;> simp

theorem fieldRd_packU (imm20 : BitVec 20) (rd : Reg) (op : BitVec 7) :
    fieldRd (packU imm20 rd op) = rd := by
  refine reg_eq_of_field (BitVec.eq_of_getLsbD_eq fun i hi => ?_)
  simp only [BitVec.getLsbD_extractLsb', getLsbD_packU, BitVec.getLsbD_append]
  interval_cases i <;> simp

theorem fieldImmU_packU (imm20 : BitVec 20) (rd : Reg) (op : BitVec 7) :
    fieldImmU (packU imm20 rd op) = imm20 := by
  refine BitVec.eq_of_getLsbD_eq fun i hi => ?_
  simp only [fieldImmU, BitVec.getLsbD_extractLsb', getLsbD_packU, BitVec.getLsbD_append]
  interval_cases i <;> simp

/-- A word is the packing of its own fields. -/
theorem packU_fields (w : InstrWord) : packU (fieldImmU w) (fieldRd w) (opcode w) = w := by
  refine BitVec.eq_of_getLsbD_eq fun i hi => ?_
  rw [getLsbD_packU]
  simp only [BitVec.getLsbD_append, BitVec.getLsbD_extractLsb', opcode, fieldImmU, regField_fieldRd]
  interval_cases i <;> simp

/-- The bits of a packed word, field by field. -/
theorem getLsbD_packJ (off : BitVec 21) (rd : Reg) (op : BitVec 7) (i : Nat) :
    (packJ off rd op).getLsbD i =
      (off.extractLsb' 20 1 ++ off.extractLsb' 1 10 ++ off.extractLsb' 11 1 ++ off.extractLsb' 12 8 ++ regField rd ++ op).getLsbD i := rfl

theorem opcode_packJ (off : BitVec 21) (rd : Reg) (op : BitVec 7) :
    opcode (packJ off rd op) = op := by
  refine BitVec.eq_of_getLsbD_eq fun i hi => ?_
  simp only [opcode, BitVec.getLsbD_extractLsb', getLsbD_packJ, BitVec.getLsbD_append]
  interval_cases i <;> simp

theorem fieldRd_packJ (off : BitVec 21) (rd : Reg) (op : BitVec 7) :
    fieldRd (packJ off rd op) = rd := by
  refine reg_eq_of_field (BitVec.eq_of_getLsbD_eq fun i hi => ?_)
  simp only [BitVec.getLsbD_extractLsb', getLsbD_packJ, BitVec.getLsbD_append]
  interval_cases i <;> simp

theorem fieldImmJ_packJ (off : BitVec 21) (rd : Reg) (op : BitVec 7) (h : jumpOffsetEven off) :
    fieldImmJ (packJ off rd op) = off := by
  have h0 : off[0] = false := by simpa [jumpOffsetEven] using h
  refine BitVec.eq_of_getLsbD_eq fun i hi => ?_
  simp only [fieldImmJ, BitVec.getLsbD_extractLsb', getLsbD_packJ, BitVec.getLsbD_append]
  interval_cases i <;> simp [h0]

/-- A word is the packing of its own fields. -/
theorem packJ_fields (w : InstrWord) : packJ (fieldImmJ w) (fieldRd w) (opcode w) = w := by
  refine BitVec.eq_of_getLsbD_eq fun i hi => ?_
  rw [getLsbD_packJ]
  simp only [BitVec.getLsbD_append, BitVec.getLsbD_extractLsb', opcode, fieldImmJ, regField_fieldRd]
  interval_cases i <;> simp

/-- The table's mask for this format keeps the fixed fields and clears the operands. -/
theorem packR_mask (f7 : BitVec 7) (rs2 rs1 : Reg) (f3 : BitVec 3) (rd : Reg) (op : BitVec 7) :
    packR f7 rs2 rs1 f3 rd op &&& 0xfe00707f#32 = packR f7 0 0 f3 0 op := by
  refine BitVec.eq_of_getLsbD_eq fun i hi => ?_
  rw [BitVec.getLsbD_and, getLsbD_packR, getLsbD_packR]
  simp only [BitVec.getLsbD_append]
  interval_cases i <;> simp [regField]

/-- The table's mask for this format keeps the fixed fields and clears the operands. -/
theorem packI_mask (imm : BitVec 12) (rs1 : Reg) (f3 : BitVec 3) (rd : Reg) (op : BitVec 7) :
    packI imm rs1 f3 rd op &&& 0x0000707f#32 = packI 0 0 f3 0 op := by
  refine BitVec.eq_of_getLsbD_eq fun i hi => ?_
  rw [BitVec.getLsbD_and, getLsbD_packI, getLsbD_packI]
  simp only [BitVec.getLsbD_append]
  interval_cases i <;> simp [regField]

/-- The table's mask for this format keeps the fixed fields and clears the operands. -/
theorem packShift64_mask (f6 : BitVec 6) (shamt : BitVec 6) (rs1 : Reg) (f3 : BitVec 3) (rd : Reg) (op : BitVec 7) :
    packShift64 f6 shamt rs1 f3 rd op &&& 0xfc00707f#32 = packShift64 f6 0 0 f3 0 op := by
  refine BitVec.eq_of_getLsbD_eq fun i hi => ?_
  rw [BitVec.getLsbD_and, getLsbD_packShift64, getLsbD_packShift64]
  simp only [BitVec.getLsbD_append]
  interval_cases i <;> simp [regField]

/-- The table's mask for this format keeps the fixed fields and clears the operands. -/
theorem packShift32_mask (f7 : BitVec 7) (shamt : BitVec 5) (rs1 : Reg) (f3 : BitVec 3) (rd : Reg) (op : BitVec 7) :
    packShift32 f7 shamt rs1 f3 rd op &&& 0xfe00707f#32 = packShift32 f7 0 0 f3 0 op := by
  refine BitVec.eq_of_getLsbD_eq fun i hi => ?_
  rw [BitVec.getLsbD_and, getLsbD_packShift32, getLsbD_packShift32]
  simp only [BitVec.getLsbD_append]
  interval_cases i <;> simp [regField]

/-- The table's mask for this format keeps the fixed fields and clears the operands. -/
theorem packS_mask (imm : BitVec 12) (rs2 rs1 : Reg) (f3 : BitVec 3) (op : BitVec 7) :
    packS imm rs2 rs1 f3 op &&& 0x0000707f#32 = packS 0 0 0 f3 op := by
  refine BitVec.eq_of_getLsbD_eq fun i hi => ?_
  rw [BitVec.getLsbD_and, getLsbD_packS, getLsbD_packS]
  simp only [BitVec.getLsbD_append]
  interval_cases i <;> simp [regField]

/-- The table's mask for this format keeps the fixed fields and clears the operands. -/
theorem packB_mask (off : BitVec 13) (rs2 rs1 : Reg) (f3 : BitVec 3) (op : BitVec 7) :
    packB off rs2 rs1 f3 op &&& 0x0000707f#32 = packB 0 0 0 f3 op := by
  refine BitVec.eq_of_getLsbD_eq fun i hi => ?_
  rw [BitVec.getLsbD_and, getLsbD_packB, getLsbD_packB]
  simp only [BitVec.getLsbD_append]
  interval_cases i <;> simp [regField]

/-- The table's mask for this format keeps the fixed fields and clears the operands. -/
theorem packU_mask (imm20 : BitVec 20) (rd : Reg) (op : BitVec 7) :
    packU imm20 rd op &&& 0x0000007f#32 = packU 0 0 op := by
  refine BitVec.eq_of_getLsbD_eq fun i hi => ?_
  rw [BitVec.getLsbD_and, getLsbD_packU, getLsbD_packU]
  simp only [BitVec.getLsbD_append]
  interval_cases i <;> simp [regField]

/-- The table's mask for this format keeps the fixed fields and clears the operands. -/
theorem packJ_mask (off : BitVec 21) (rd : Reg) (op : BitVec 7) :
    packJ off rd op &&& 0x0000007f#32 = packJ 0 0 op := by
  refine BitVec.eq_of_getLsbD_eq fun i hi => ?_
  rw [BitVec.getLsbD_and, getLsbD_packJ, getLsbD_packJ]
  simp only [BitVec.getLsbD_append]
  interval_cases i <;> simp [regField]

/-- The decoder only makes even branch offsets. -/
theorem fieldImmB_even (w : InstrWord) : branchOffsetEven (fieldImmB w) := by
  unfold branchOffsetEven fieldImmB
  rw [BitVec.getLsbD_append]
  rfl

/-- The decoder only makes even JAL offsets. -/
theorem fieldImmJ_even (w : InstrWord) : jumpOffsetEven (fieldImmJ w) := by
  unfold jumpOffsetEven fieldImmJ
  rw [BitVec.getLsbD_append]
  rfl

/-! ## From a row's fixed bits to the fields the decoder looks at -/

theorem and_ones3 (x : BitVec 3) : x &&& 7#3 = x := BitVec.and_allOnes

theorem and_ones6 (x : BitVec 6) : x &&& 63#6 = x := BitVec.and_allOnes

theorem and_ones7 (x : BitVec 7) : x &&& 127#7 = x := BitVec.and_allOnes

theorem fields_of_mask7 {w p : InstrWord} (h : w &&& 0x0000007f#32 = p) : opcode w = opcode p := by
  subst h
  simp only [opcode, BitVec.extractLsb'_and]
  simp [and_ones7]

theorem fields_of_mask10 {w p : InstrWord} (h : w &&& 0x0000707f#32 = p) : opcode w = opcode p ∧ funct3 w = funct3 p := by
  subst h
  constructor <;> simp only [opcode, funct3, BitVec.extractLsb'_and] <;> simp [and_ones3, and_ones7]

theorem fields_of_mask16 {w p : InstrWord} (h : w &&& 0xfc00707f#32 = p) :
    opcode w = opcode p ∧ funct3 w = funct3 p ∧ funct6 w = funct6 p := by
  subst h
  refine ⟨?_, ?_, ?_⟩ <;> simp only [opcode, funct3, funct6, BitVec.extractLsb'_and] <;> simp [and_ones3, and_ones6, and_ones7]

theorem fields_of_mask17 {w p : InstrWord} (h : w &&& 0xfe00707f#32 = p) :
    opcode w = opcode p ∧ funct3 w = funct3 p ∧ funct7 w = funct7 p := by
  subst h
  refine ⟨?_, ?_, ?_⟩ <;> simp only [opcode, funct3, funct7, BitVec.extractLsb'_and] <;> simp [and_ones3, and_ones7]

end Sys2Proof
end

