-- ==== Sys2Proof/Laws/Memory.lean ====
section
/-! SUPPORT. RAM bytes: read after write, the canonical form and the RAM window kept by every memory operation. -/

namespace Sys2Proof.Machine

theorem Memory.read_erase (m : Memory) (a b : Nat) :
    (m.erase a).read b = if b = a then unlistedByte a else m.read b := by
  induction m with
  | nil => by_cases h : b = a <;> simp [Memory.erase, Memory.read, h]
  | cons e m ih =>
    obtain ⟨k, v⟩ := e
    by_cases hk : k = a <;> by_cases hb : b = a <;> by_cases hkb : k = b <;>
      simp_all [Memory.erase, Memory.read]

theorem Memory.mem_erase {m : Memory} {a : Nat} {e : Host.Cell} : e ∈ m.erase a ↔ e ∈ m ∧ e.1 ≠ a := by
  induction m with
  | nil => simp [Memory.erase]
  | cons c m ih =>
    obtain ⟨k, v⟩ := c
    by_cases hk : k = a
    · simp only [Memory.erase, hk, if_true, ih, List.mem_cons]
      constructor
      · rintro ⟨h, ha⟩; exact ⟨.inr h, ha⟩
      · rintro ⟨rfl | h, ha⟩
        · exact absurd rfl ha
        · exact ⟨h, ha⟩
    · simp only [Memory.erase, hk, if_false, List.mem_cons, ih]
      constructor
      · rintro (rfl | ⟨h, ha⟩)
        · exact ⟨.inl rfl, hk⟩
        · exact ⟨.inr h, ha⟩
      · rintro ⟨rfl | h, ha⟩
        · exact .inl rfl
        · exact .inr ⟨h, ha⟩

theorem Memory.mem_insert {m : Memory} {a : Nat} {v : Byte} {e : Host.Cell} :
    e ∈ m.insert a v ↔ e = (a, v) ∨ e ∈ m := by
  induction m with
  | nil => simp [Memory.insert]
  | cons c m ih =>
    obtain ⟨k, b⟩ := c
    by_cases hk : a < k
    · simp [Memory.insert, hk]
    · simp only [Memory.insert, hk, if_false, List.mem_cons, ih]
      tauto

theorem Memory.read_of_absent {m : Memory} {a : Nat} (h : ∀ e ∈ m, e.1 ≠ a) : m.read a = unlistedByte a := by
  induction m with
  | nil => rfl
  | cons c m ih =>
    obtain ⟨k, b⟩ := c
    have hk : k ≠ a := h (k, b) (by simp)
    simp [Memory.read, hk, ih fun e he => h e (by simp [he])]

theorem Memory.read_insert {m : Memory} {a : Nat} (v : Byte) (b : Nat) (h : ∀ e ∈ m, e.1 ≠ a) :
    (m.insert a v).read b = if b = a then v else m.read b := by
  have hne : ∀ {x : Byte}, b ≠ a → (if a = b then v else x) = if b = a then v else x := fun hb => by
    rw [if_neg hb, if_neg (Ne.symm hb)]
  induction m with
  | nil =>
    by_cases hb : b = a
    · simp [Memory.insert, Memory.read, hb]
    · exact hne hb
  | cons c m ih =>
    obtain ⟨k, w⟩ := c
    have hk : k ≠ a := h (k, w) (by simp)
    have ih := ih fun e he => h e (by simp [he])
    unfold Memory.insert
    split
    · by_cases hb : b = a
      · simp [Memory.read, hb]
      · exact hne hb
    · by_cases hkb : k = b
      · subst hkb; simp [Memory.read, hk]
      · simp [Memory.read, hkb, ih]

/-- The two laws of a byte write at once: the byte written reads back, every other byte is as it was. -/
theorem Memory.read_write (m : Memory) (a : Nat) (v : Byte) (b : Nat) :
    (m.write a v).read b = if b = a then v else m.read b := by
  unfold Memory.write
  split
  · next h => rw [Memory.read_erase, h]
  · rw [Memory.read_insert v b fun e he => (Memory.mem_erase.mp he).2, Memory.read_erase]
    split <;> rfl

/-- The cells after a write: the new one, unless its value is the unlisted one, and the old ones elsewhere. -/
theorem Memory.mem_write {m : Memory} {a : Nat} {v : Byte} {e : Host.Cell} (h : e ∈ m.write a v) :
    (e = (a, v) ∧ v ≠ unlistedByte a) ∨ (e ∈ m ∧ e.1 ≠ a) := by
  unfold Memory.write at h
  split at h
  · exact .inr (Memory.mem_erase.mp h)
  · next hv =>
    rcases Memory.mem_insert.mp h with h | h
    · exact .inl ⟨h, hv⟩
    · exact .inr (Memory.mem_erase.mp h)

theorem Memory.erase_rising {m : Memory} (a : Nat) (h : m.Pairwise fun a b => a.1 < b.1) :
    (m.erase a).Pairwise fun a b => a.1 < b.1 := by
  induction m with
  | nil => exact .nil
  | cons c m ih =>
    obtain ⟨k, b⟩ := c
    obtain ⟨hk, hm⟩ := List.pairwise_cons.mp h
    unfold Memory.erase
    split
    · exact ih hm
    · exact .cons (fun e he => hk e (Memory.mem_erase.mp he).1) (ih hm)

theorem Memory.insert_rising {m : Memory} (a : Nat) (v : Byte) (ha : ∀ e ∈ m, e.1 ≠ a)
    (h : m.Pairwise fun a b => a.1 < b.1) : (m.insert a v).Pairwise fun a b => a.1 < b.1 := by
  induction m with
  | nil => exact List.pairwise_singleton _ _
  | cons c m ih =>
    obtain ⟨k, b⟩ := c
    obtain ⟨hk, hm⟩ := List.pairwise_cons.mp h
    have hka : k ≠ a := ha (k, b) (by simp)
    unfold Memory.insert
    split
    · next hlt =>
      refine .cons (fun e he => ?_) h
      rcases List.mem_cons.mp he with rfl | he
      · exact hlt
      · exact Nat.lt_trans hlt (hk e he)
    · next hlt =>
      refine .cons (fun e he => ?_) (ih (fun e he => ha e (by simp [he])) hm)
      rcases Memory.mem_insert.mp he with rfl | he
      · exact Nat.lt_of_le_of_ne (Nat.le_of_not_lt hlt) hka
      · exact hk e he

/-- A byte write keeps the canonical form. -/
theorem Memory.write_wf {m : Memory} (a : Nat) (v : Byte) (h : m.wf) : (m.write a v).wf := by
  refine ⟨?_, fun e he => ?_⟩
  · unfold Memory.write
    split
    · exact Memory.erase_rising a h.1
    · exact Memory.insert_rising a v (fun e he => (Memory.mem_erase.mp he).2) (Memory.erase_rising a h.1)
  · rcases Memory.mem_write he with ⟨rfl, hv⟩ | ⟨he, _⟩
    · exact hv
    · exact h.2 e he

/-- A byte write inside the RAM window keeps every cell inside it. -/
theorem Memory.write_inWindow {c : Config} {m : Memory} {a : Nat} (v : Byte) (h : m.InWindow c)
    (ha : c.memBase.toNat ≤ a ∧ a < c.memBase.toNat + c.memSize) : (m.write a v).InWindow c := by
  intro e he
  rcases Memory.mem_write he with ⟨rfl, _⟩ | ⟨he, _⟩
  · exact ha
  · exact h e he

/-- What a run of byte writes leaves: byte k of the value inside the run, the old byte outside. -/
theorem Memory.read_writeBytes (m : Memory) (a n : Nat) (v : Word) (b : Nat) :
    (m.writeBytes a n v).read b = if a ≤ b ∧ b < a + n then v.extractLsb' (8 * (b - a)) 8 else m.read b := by
  induction n generalizing m a v with
  | zero => simp [Memory.writeBytes]
  | succ n ih =>
    rw [Memory.writeBytes, ih, Memory.read_write]
    by_cases h1 : a + 1 ≤ b ∧ b < a + 1 + n
    · rw [if_pos h1, if_pos (by omega)]
      have hb : 8 * (b - a) = 8 + 8 * (b - (a + 1)) := by omega
      ext i hi
      simp [hb, Nat.add_assoc]
    · rw [if_neg h1]
      by_cases h2 : b = a
      · subst h2
        rw [if_pos rfl, if_pos (by omega)]
        simp [BitVec.setWidth_eq_extractLsb']
      · rw [if_neg h2, if_neg (by omega)]

theorem Memory.writeBytes_wf {m : Memory} (a n : Nat) (v : Word) (h : m.wf) : (m.writeBytes a n v).wf := by
  induction n generalizing m a v with
  | zero => exact h
  | succ n ih => exact ih _ _ (Memory.write_wf a _ h)

theorem Memory.writeBytes_inWindow {c : Config} {m : Memory} (a n : Nat) (v : Word) (h : m.InWindow c)
    (ha : c.memBase.toNat ≤ a ∧ a + n ≤ c.memBase.toNat + c.memSize) : (m.writeBytes a n v).InWindow c := by
  induction n generalizing m a v with
  | zero => exact h
  | succ n ih => exact ih _ _ (Memory.write_inWindow _ h (by omega)) (by omega)

/-- What laying down an image leaves: its bytes inside its run, the old ones outside. -/
theorem Memory.read_writeImage (m : Memory) (a : Nat) (bs : List Byte) (b : Nat) :
    (m.writeImage a bs).read b = if h : a ≤ b ∧ b - a < bs.length then bs[b - a] else m.read b := by
  induction bs generalizing m a with
  | nil => simp [Memory.writeImage]
  | cons c bs ih =>
    rw [Memory.writeImage, ih, Memory.read_write]
    by_cases h1 : a + 1 ≤ b ∧ b - (a + 1) < bs.length
    · rw [dif_pos h1, dif_pos (by simp only [List.length_cons]; omega)]
      have hb : b - a = (b - (a + 1)) + 1 := by omega
      simp [hb]
    · rw [dif_neg h1]
      by_cases h2 : b = a
      · subst h2; simp
      · rw [if_neg h2, dif_neg (by simp only [List.length_cons]; omega)]

theorem Memory.writeImage_wf {m : Memory} (a : Nat) (bs : List Byte) (h : m.wf) : (m.writeImage a bs).wf := by
  induction bs generalizing m a with
  | nil => exact h
  | cons c bs ih => exact ih _ (Memory.write_wf a _ h)

theorem Memory.writeImage_inWindow {c : Config} {m : Memory} (a : Nat) (bs : List Byte) (h : m.InWindow c)
    (ha : c.memBase.toNat ≤ a ∧ a + bs.length ≤ c.memBase.toNat + c.memSize) : (m.writeImage a bs).InWindow c := by
  induction bs generalizing m a with
  | nil => exact h
  | cons b bs ih =>
    simp only [List.length_cons] at ha
    exact ih _ (Memory.write_inWindow _ h (by omega)) (by omega)

/-- The bits of an assembled word: bit i is bit i mod 8 of byte i / 8, and 0 past the run. -/
theorem Memory.getLsbD_readBytes (m : Memory) (a n i : Nat) (hi : i < 64) :
    (m.readBytes a n).getLsbD i = (decide (i < 8 * n) && (m.read (a + i / 8)).getLsbD (i % 8)) := by
  induction n generalizing a i with
  | zero => simp [Memory.readBytes]
  | succ n ih =>
    simp only [Memory.readBytes, BitVec.getLsbD_or, BitVec.getLsbD_shiftLeft, BitVec.getLsbD_setWidth]
    by_cases h8 : i < 8
    · simp [h8, hi, Nat.div_eq_of_lt h8, Nat.mod_eq_of_lt h8, show i < 8 * (n + 1) by omega]
    · rw [ih (a + 1) (i - 8) (by omega)]
      have h1 : (i - 8) / 8 = i / 8 - 1 := by omega
      have h2 : (i - 8) % 8 = i % 8 := by omega
      have h3 : a + 1 + (i / 8 - 1) = a + i / 8 := by omega
      have h4 : (m.read a).getLsbD i = false := BitVec.getLsbD_of_ge _ _ (by omega)
      simp [h1, h2, h3, h4, hi, h8, show i - 8 < 8 * n ↔ i < 8 * (n + 1) by omega]

/-- An assembled word depends only on the bytes it covers. -/
theorem Memory.readBytes_congr {m m' : Memory} {a n : Nat} (h : ∀ k, k < n → m.read (a + k) = m'.read (a + k)) :
    m.readBytes a n = m'.readBytes a n := by
  induction n generalizing a with
  | zero => rfl
  | succ n ih =>
    have h0 := h 0 (by omega)
    rw [Memory.readBytes, Memory.readBytes, ih fun k hk => by simpa [Nat.add_assoc, Nat.add_comm 1] using h (k + 1) (by omega)]
    simp only [Nat.add_zero] at h0
    rw [h0]

end Sys2Proof.Machine
end

