-- ==== Sys2Proof/Laws/State.lean ====
section
/-! SUPPORT. The fields of an updated state, one lemma per field per update, and the register accessor over the updates. -/

namespace Sys2Proof.Machine

@[simp] theorem State.setReg_x (s : State) (r : Reg) (v : Word) : (s.setReg r v).x = if r = 0 then s.x else s.x.set r.val v := rfl
@[simp] theorem State.setReg_pc (s : State) (r : Reg) (v : Word) : (s.setReg r v).pc = s.pc := rfl
@[simp] theorem State.setReg_mem (s : State) (r : Reg) (v : Word) : (s.setReg r v).mem = s.mem := rfl
@[simp] theorem State.setReg_status (s : State) (r : Reg) (v : Word) : (s.setReg r v).status = s.status := rfl
@[simp] theorem State.setReg_cfg (s : State) (r : Reg) (v : Word) : (s.setReg r v).cfg = s.cfg := rfl

@[simp] theorem State.setPc_x (s : State) (v : Word) : (s.setPc v).x = s.x := rfl
@[simp] theorem State.setPc_pc (s : State) (v : Word) : (s.setPc v).pc = v := rfl
@[simp] theorem State.setPc_mem (s : State) (v : Word) : (s.setPc v).mem = s.mem := rfl
@[simp] theorem State.setPc_status (s : State) (v : Word) : (s.setPc v).status = s.status := rfl
@[simp] theorem State.setPc_cfg (s : State) (v : Word) : (s.setPc v).cfg = s.cfg := rfl

@[simp] theorem State.setMem_x (s : State) (m : Memory) : (s.setMem m).x = s.x := rfl
@[simp] theorem State.setMem_pc (s : State) (m : Memory) : (s.setMem m).pc = s.pc := rfl
@[simp] theorem State.setMem_mem (s : State) (m : Memory) : (s.setMem m).mem = m := rfl
@[simp] theorem State.setMem_status (s : State) (m : Memory) : (s.setMem m).status = s.status := rfl
@[simp] theorem State.setMem_cfg (s : State) (m : Memory) : (s.setMem m).cfg = s.cfg := rfl

@[simp] theorem State.setStatus_x (s : State) (st : RunStatus) : (s.setStatus st).x = s.x := rfl
@[simp] theorem State.setStatus_pc (s : State) (st : RunStatus) : (s.setStatus st).pc = s.pc := rfl
@[simp] theorem State.setStatus_mem (s : State) (st : RunStatus) : (s.setStatus st).mem = s.mem := rfl
@[simp] theorem State.setStatus_status (s : State) (st : RunStatus) : (s.setStatus st).status = st := rfl
@[simp] theorem State.setStatus_cfg (s : State) (st : RunStatus) : (s.setStatus st).cfg = s.cfg := rfl

@[simp] theorem State.reg_zero (s : State) : s.reg 0 = 0#64 := rfl

@[simp] theorem State.reg_setPc (s : State) (v : Word) (r : Reg) : (s.setPc v).reg r = s.reg r := rfl
@[simp] theorem State.reg_setMem (s : State) (m : Memory) (r : Reg) : (s.setMem m).reg r = s.reg r := rfl
@[simp] theorem State.reg_setStatus (s : State) (st : RunStatus) (r : Reg) : (s.setStatus st).reg r = s.reg r := rfl

@[simp] theorem State.readByte_setPc (s : State) (v : Word) (a : Nat) : (s.setPc v).readByte a = s.readByte a := rfl
@[simp] theorem State.readByte_setReg (s : State) (r : Reg) (v : Word) (a : Nat) : (s.setReg r v).readByte a = s.readByte a := rfl
@[simp] theorem State.readByte_setStatus (s : State) (st : RunStatus) (a : Nat) : (s.setStatus st).readByte a = s.readByte a := rfl
@[simp] theorem State.readByte_setMem (s : State) (m : Memory) (a : Nat) : (s.setMem m).readByte a = m.read a := rfl

/-- A register written and read back; x0 discards (R21). -/
theorem State.reg_setReg_same (s : State) (r : Reg) (v : Word) : (s.setReg r v).reg r = if r = 0 then 0#64 else v := by
  by_cases h : r = 0 <;> simp [State.reg, h]

/-- Writing one register leaves every other as it was. -/
theorem State.reg_setReg_other (s : State) {r q : Reg} (v : Word) (h : q ≠ r) : (s.setReg r v).reg q = s.reg q := by
  have hv : r.val ≠ q.val := fun e => h (Fin.ext e.symm)
  by_cases h0 : r = 0 <;> simp [State.reg, h0, Vector.getElem_set_ne, hv]

/-- The slot of x0 is never written. -/
theorem State.setReg_zeroSlot (s : State) (r : Reg) (v : Word) : (s.setReg r v).x[0] = s.x[0] := by
  by_cases h : r = 0
  · simp [h]
  · have hv : r.val ≠ 0 := fun e => h (Fin.ext e)
    simp [h, Vector.getElem_set_ne, hv]

end Sys2Proof.Machine
end

