-- ==== Sys2Proof/Laws/Ops.lean ====
section
/-! SUPPORT. The shared operations, each with one lemma that says everything it can do. Proofs about instructions cite these and unfold none
of the operations. -/

namespace Sys2Proof.Machine

/-! ## The bus -/

/-- The four widths, as byte counts (spec/20_memory.md R42). -/
theorem widthBytes_cases {w : BitVec 8} {n : Nat} (h : widthBytes w = some n) :
    (w = 8#8 ∧ n = 1) ∨ (w = 16#8 ∧ n = 2) ∨ (w = 32#8 ∧ n = 4) ∨ (w = 64#8 ∧ n = 8) := by
  unfold widthBytes at h
  split at h
  · next e => exact .inl ⟨e, (Option.some.inj h).symm⟩
  · split at h
    · next e => exact .inr (.inl ⟨e, (Option.some.inj h).symm⟩)
    · split at h
      · next e => exact .inr (.inr (.inl ⟨e, (Option.some.inj h).symm⟩))
      · split at h
        · next e => exact .inr (.inr (.inr ⟨e, (Option.some.inj h).symm⟩))
        · cases h

theorem widthBytes_mem {w : BitVec 8} {n : Nat} (h : widthBytes w = some n) : n ∈ [1, 2, 4, 8] := by
  rcases widthBytes_cases h with ⟨_, rfl⟩ | ⟨_, rfl⟩ | ⟨_, rfl⟩ | ⟨_, rfl⟩ <;> decide

/-- A load of a supported width inside RAM. -/
theorem busLoad_ok {s : State} {a : Word} {w : BitVec 8} {n : Nat} (hw : widthBytes w = some n) (hb : InBounds s.cfg a n) :
    busLoad s a w = .ok (s.mem.readBytes a.toNat n) := by
  simp only [busLoad, hw, if_pos hb]

/-- A load of a supported width that is not wholly inside RAM. -/
theorem busLoad_outOfBounds {s : State} {a : Word} {w : BitVec 8} {n : Nat} (hw : widthBytes w = some n)
    (hb : ¬ InBounds s.cfg a n) : busLoad s a w = .error (.outOfBounds a n) := by
  simp only [busLoad, hw, if_neg hb]

/-- A store of a supported width inside RAM. -/
theorem busStore_ok {s : State} {a : Word} {w : BitVec 8} {n : Nat} {v : Word} (hw : widthBytes w = some n)
    (hb : InBounds s.cfg a n) : busStore s a w v = .ok (s.setMem (s.mem.writeBytes a.toNat n v)) := by
  simp only [busStore, hw, if_pos hb]

/-- A store of a supported width that is not wholly inside RAM. -/
theorem busStore_outOfBounds {s : State} {a : Word} {w : BitVec 8} {n : Nat} {v : Word} (hw : widthBytes w = some n)
    (hb : ¬ InBounds s.cfg a n) : busStore s a w v = .error (.outOfBounds a n) := by
  simp only [busStore, hw, if_neg hb]

/-- A run of at most eight bytes read as a word is its integer value, least significant byte first. -/
theorem toNat_readBytes (s : State) (a n : Nat) (hn : n ≤ 8) :
    (s.mem.readBytes a n).toNat = s.bytesValue a n ∧ s.bytesValue a n < 256 ^ n := by
  induction n generalizing a with
  | zero => simp [Memory.readBytes, State.bytesValue]
  | succ n ih =>
    obtain ⟨hv, hlt⟩ := ih (a + 1) (by omega)
    have hb : (s.readByte a).toNat < 256 := (s.readByte a).isLt
    have hpow : 256 ^ (n + 1) = 256 * 256 ^ n := by rw [Nat.pow_succ, Nat.mul_comm]
    have hle : 256 * 256 ^ n ≤ 2 ^ 64 := by
      rw [← hpow, show (2 : Nat) ^ 64 = 256 ^ 8 by decide]
      exact Nat.pow_le_pow_right (by decide) hn
    refine ⟨?_, by rw [State.bytesValue, hpow]; omega⟩
    have hshift : (s.mem.readBytes (a + 1) n).toNat <<< 8 < 2 ^ 64 := by
      rw [Nat.shiftLeft_eq, hv]; omega
    have hbyte : (s.mem.read a).toNat < 2 ^ 8 := (s.mem.read a).isLt
    rw [Memory.readBytes, BitVec.toNat_or, BitVec.toNat_shiftLeft, Nat.mod_eq_of_lt hshift, BitVec.toNat_setWidth,
      Nat.mod_eq_of_lt (by omega), ← Nat.shiftLeft_add_eq_or_of_lt hbyte, Nat.shiftLeft_eq, hv, State.bytesValue]
    simp only [State.readByte]
    omega

/-! ## The ends of an instruction, as frames -/

theorem setReg_onlyWrites (s : State) (rd : Reg) (v : Word) : s.OnlyWrites (s.setReg rd v) rd v where
  dest := s.reg_setReg_same rd v
  regs _ h := s.reg_setReg_other v h
  pc := rfl
  bytes _ := rfl
  status := rfl
  cfg := rfl

theorem setPc_onlyJumps (s : State) (target : Word) : s.OnlyJumps (s.setPc target) target where
  regs _ := rfl
  pc := rfl
  bytes _ := rfl
  status := rfl
  cfg := rfl

theorem self_onlyJumps (s : State) : s.OnlyJumps s s.pc := setPc_onlyJumps s s.pc

theorem setRegPc_onlyLinks (s : State) (rd : Reg) (link target : Word) :
    s.OnlyLinks ((s.setReg rd link).setPc target) rd link target where
  dest := s.reg_setReg_same rd link
  regs _ h := s.reg_setReg_other link h
  pc := rfl
  bytes _ := rfl
  status := rfl
  cfg := rfl

theorem setStatus_onlyFaults (s : State) (f : Fault) : s.OnlyFaults (s.setStatus (.faulted f)) f where
  status := rfl
  regs _ := rfl
  pc := rfl
  bytes _ := rfl
  cfg := rfl

theorem writeBytes_onlyStores (s : State) (a n : Nat) (v : Word) :
    s.OnlyStores (s.setMem (s.mem.writeBytes a n v)) a n v where
  stored k hk := by
    rw [State.readByte_setMem, Memory.read_writeBytes, if_pos (by omega), Nat.add_sub_cancel_left]
  bytes b hb := by
    rw [State.readByte_setMem, Memory.read_writeBytes, if_neg (by omega)]; rfl
  regs _ := rfl
  pc := rfl
  status := rfl
  cfg := rfl

/-! ## Loads and stores -/

/-- Everything a load of a supported width can do. -/
theorem loadInto_cases {w : BitVec 8} {n : Nat} (hw : widthBytes w = some n) (rd : Reg) (a : Word) (ext : Word → Word) (s : State) :
    (InBounds s.cfg a n ∧ loadInto rd a w ext s = .next (s.setReg rd (ext (s.mem.readBytes a.toNat n)))) ∨
    (¬ InBounds s.cfg a n ∧ loadInto rd a w ext s = .next (s.setStatus (.faulted (.outOfBounds a n)))) := by
  by_cases hb : InBounds s.cfg a n
  · exact .inl ⟨hb, by simp only [loadInto, busLoad_ok hw hb]⟩
  · exact .inr ⟨hb, by simp only [loadInto, busLoad_outOfBounds hw hb, takeFault]⟩

/-- Everything a store of a supported width can do. -/
theorem storeFrom_cases {w : BitVec 8} {n : Nat} (hw : widthBytes w = some n) (a v : Word) (s : State) :
    (InBounds s.cfg a n ∧ storeFrom a w v s = .next (s.setMem (s.mem.writeBytes a.toNat n v))) ∨
    (¬ InBounds s.cfg a n ∧ storeFrom a w v s = .next (s.setStatus (.faulted (.outOfBounds a n)))) := by
  by_cases hb : InBounds s.cfg a n
  · exact .inl ⟨hb, by simp only [storeFrom, busStore_ok hw hb]⟩
  · exact .inr ⟨hb, by simp only [storeFrom, busStore_outOfBounds hw hb, takeFault]⟩

end Sys2Proof.Machine
end

