-- ==== Sys2Proof/Laws/Exec.lean ====
section
/-! SUPPORT. What one instruction and one step can do, said once: the inversion lemmas that whole-machine rules are derived from. -/

namespace Sys2Proof.Machine

/-- The five ways an instruction ends. -/
inductive ExecEnd (i : Instr) (s : State) : State → Prop where
  /-- A register result and nothing else. -/
  | result (rd : Reg) (v : Word) (hd : i.dest = some rd) (hc : i.isControlTransfer = false) (hs : i.isStore = false) :
      ExecEnd i s (s.setReg rd v)
  /-- A store inside RAM. -/
  | stored (a : Word) (n : Nat) (v : Word) (hb : InBounds s.cfg a n) (hd : i.dest = none) (hc : i.isControlTransfer = false)
      (hs : i.isStore = true) : ExecEnd i s (s.setMem (s.mem.writeBytes a.toNat n v))
  /-- A load or store that is out of bounds. -/
  | faulted (a : Word) (n : Nat) (hn : n ∈ [1, 2, 4, 8]) (hb : ¬ InBounds s.cfg a n) (hc : i.isControlTransfer = false)
      (hm : (i.isLoad || i.isStore) = true) : ExecEnd i s (s.setStatus (.faulted (.outOfBounds a n)))
  /-- A branch, taken or not. -/
  | branched (target : Word) (hd : i.dest = none) (hc : i.isControlTransfer = true) (hs : i.isStore = false) :
      ExecEnd i s (s.setPc target)
  /-- A jump with its link. -/
  | jumped (rd : Reg) (link target : Word) (hd : i.dest = some rd) (hc : i.isControlTransfer = true) (hs : i.isStore = false) :
      ExecEnd i s ((s.setReg rd link).setPc target)

theorem loadInto_end {i : Instr} {w : BitVec 8} {n : Nat} (hw : widthBytes w = some n) {rd : Reg} (a : Word) (ext : Word → Word)
    (s : State) (hd : i.dest = some rd) (hc : i.isControlTransfer = false) (hs : i.isStore = false)
    (hm : (i.isLoad || i.isStore) = true) : ∃ t, loadInto rd a w ext s = .next t ∧ ExecEnd i s t := by
  rcases loadInto_cases hw rd a ext s with ⟨_, h⟩ | ⟨hb, h⟩
  · exact ⟨_, h, .result rd _ hd hc hs⟩
  · exact ⟨_, h, .faulted a n (widthBytes_mem hw) hb hc hm⟩

theorem storeFrom_end {i : Instr} {w : BitVec 8} {n : Nat} (hw : widthBytes w = some n) (a v : Word)
    (s : State) (hd : i.dest = none) (hc : i.isControlTransfer = false) (hs : i.isStore = true) :
    ∃ t, storeFrom a w v s = .next t ∧ ExecEnd i s t := by
  rcases storeFrom_cases hw a v s with ⟨hb, h⟩ | ⟨hb, h⟩
  · exact ⟨_, h, .stored a n v hb hd hc hs⟩
  · exact ⟨_, h, .faulted a n (widthBytes_mem hw) hb hc (by simp [hs])⟩

theorem branchTo_end {i : Instr} (taken : Bool) (target : Word) (s : State) (hd : i.dest = none)
    (hc : i.isControlTransfer = true) (hs : i.isStore = false) :
    ∃ t, branchTo taken target s = .next t ∧ ExecEnd i s t := by
  cases taken
  · exact ⟨_, rfl, .branched s.pc hd hc hs⟩
  · exact ⟨_, rfl, .branched target hd hc hs⟩

/-- Every instruction, in every state, ends in a next state in one of the five ways. -/
theorem exec_ends (i : Instr) (s : State) : ∃ t, exec i s = .next t ∧ ExecEnd i s t := by
  cases i with
  | lb _ _ _ => exact loadInto_end rfl _ _ s rfl rfl rfl rfl
  | lh _ _ _ => exact loadInto_end rfl _ _ s rfl rfl rfl rfl
  | lw _ _ _ => exact loadInto_end rfl _ _ s rfl rfl rfl rfl
  | ld _ _ _ => exact loadInto_end rfl _ _ s rfl rfl rfl rfl
  | lbu _ _ _ => exact loadInto_end rfl _ _ s rfl rfl rfl rfl
  | lhu _ _ _ => exact loadInto_end rfl _ _ s rfl rfl rfl rfl
  | lwu _ _ _ => exact loadInto_end rfl _ _ s rfl rfl rfl rfl
  | addi _ _ _ => exact ⟨_, rfl, .result _ _ rfl rfl rfl⟩
  | slli _ _ _ => exact ⟨_, rfl, .result _ _ rfl rfl rfl⟩
  | slti _ _ _ => exact ⟨_, rfl, .result _ _ rfl rfl rfl⟩
  | sltiu _ _ _ => exact ⟨_, rfl, .result _ _ rfl rfl rfl⟩
  | xori _ _ _ => exact ⟨_, rfl, .result _ _ rfl rfl rfl⟩
  | srli _ _ _ => exact ⟨_, rfl, .result _ _ rfl rfl rfl⟩
  | srai _ _ _ => exact ⟨_, rfl, .result _ _ rfl rfl rfl⟩
  | ori _ _ _ => exact ⟨_, rfl, .result _ _ rfl rfl rfl⟩
  | andi _ _ _ => exact ⟨_, rfl, .result _ _ rfl rfl rfl⟩
  | auipc _ _ => exact ⟨_, rfl, .result _ _ rfl rfl rfl⟩
  | addiw _ _ _ => exact ⟨_, rfl, .result _ _ rfl rfl rfl⟩
  | slliw _ _ _ => exact ⟨_, rfl, .result _ _ rfl rfl rfl⟩
  | srliw _ _ _ => exact ⟨_, rfl, .result _ _ rfl rfl rfl⟩
  | sraiw _ _ _ => exact ⟨_, rfl, .result _ _ rfl rfl rfl⟩
  | sb _ _ _ => exact storeFrom_end rfl _ _ s rfl rfl rfl
  | sh _ _ _ => exact storeFrom_end rfl _ _ s rfl rfl rfl
  | sw _ _ _ => exact storeFrom_end rfl _ _ s rfl rfl rfl
  | sd _ _ _ => exact storeFrom_end rfl _ _ s rfl rfl rfl
  | add _ _ _ => exact ⟨_, rfl, .result _ _ rfl rfl rfl⟩
  | mul _ _ _ => exact ⟨_, rfl, .result _ _ rfl rfl rfl⟩
  | sub _ _ _ => exact ⟨_, rfl, .result _ _ rfl rfl rfl⟩
  | sll _ _ _ => exact ⟨_, rfl, .result _ _ rfl rfl rfl⟩
  | slt _ _ _ => exact ⟨_, rfl, .result _ _ rfl rfl rfl⟩
  | sltu _ _ _ => exact ⟨_, rfl, .result _ _ rfl rfl rfl⟩
  | xor _ _ _ => exact ⟨_, rfl, .result _ _ rfl rfl rfl⟩
  | srl _ _ _ => exact ⟨_, rfl, .result _ _ rfl rfl rfl⟩
  | sra _ _ _ => exact ⟨_, rfl, .result _ _ rfl rfl rfl⟩
  | or _ _ _ => exact ⟨_, rfl, .result _ _ rfl rfl rfl⟩
  | and _ _ _ => exact ⟨_, rfl, .result _ _ rfl rfl rfl⟩
  | lui _ _ => exact ⟨_, rfl, .result _ _ rfl rfl rfl⟩
  | addw _ _ _ => exact ⟨_, rfl, .result _ _ rfl rfl rfl⟩
  | subw _ _ _ => exact ⟨_, rfl, .result _ _ rfl rfl rfl⟩
  | sllw _ _ _ => exact ⟨_, rfl, .result _ _ rfl rfl rfl⟩
  | srlw _ _ _ => exact ⟨_, rfl, .result _ _ rfl rfl rfl⟩
  | sraw _ _ _ => exact ⟨_, rfl, .result _ _ rfl rfl rfl⟩
  | beq _ _ _ => exact branchTo_end _ _ s rfl rfl rfl
  | bne _ _ _ => exact branchTo_end _ _ s rfl rfl rfl
  | blt _ _ _ => exact branchTo_end _ _ s rfl rfl rfl
  | bge _ _ _ => exact branchTo_end _ _ s rfl rfl rfl
  | bltu _ _ _ => exact branchTo_end _ _ s rfl rfl rfl
  | bgeu _ _ _ => exact branchTo_end _ _ s rfl rfl rfl
  | jalr _ _ _ => exact ⟨_, rfl, .jumped _ _ _ rfl rfl rfl⟩
  | jal _ _ => exact ⟨_, rfl, .jumped _ _ _ rfl rfl rfl⟩

/-- The same, from the next state back. -/
theorem exec_cases {i : Instr} {s t : State} (h : exec i s = .next t) : ExecEnd i s t := by
  obtain ⟨u, hu, he⟩ := exec_ends i s
  obtain rfl : u = t := by rw [hu] at h; exact Host.Outcome.next.inj h
  exact he

/-- Everything a cycle of the driver can do (spec/40_engine.md R100, R110). -/
theorem cycle_cases (s : State) :
    (¬ s.FetchInBounds ∧ cycle s = .next (s.setStatus (.faulted (.outOfBounds s.pc 4)))) ∨
    (s.FetchInBounds ∧ (∀ i, decode ((s.mem.readBytes s.pc.toNat 4).setWidth 32) ≠ .ok i) ∧
      cycle s = .next ((advancePc s).setStatus
        (.faulted (.unimplementedInstruction ((s.mem.readBytes s.pc.toNat 4).setWidth 32))))) ∨
    (s.FetchInBounds ∧ ∃ i, decode ((s.mem.readBytes s.pc.toNat 4).setWidth 32) = .ok i ∧
      cycle s = exec i (advancePc s)) := by
  by_cases hb : s.FetchInBounds
  · have hf : fetch s = .ok (s.mem.readBytes s.pc.toNat 4) := busLoad_ok rfl hb
    cases hd : decode ((s.mem.readBytes s.pc.toNat 4).setWidth 32) with
    | error e =>
      refine .inr (.inl ⟨hb, (fun i h => by cases h), ?_⟩)
      simp only [cycle, hf, execute, hd, takeFault]
    | ok i =>
      refine .inr (.inr ⟨hb, i, rfl, ?_⟩)
      simp only [cycle, hf, execute, hd]
  · have hf : fetch s = .error (.outOfBounds s.pc 4) := busLoad_outOfBounds rfl hb
    exact .inl ⟨hb, by simp only [cycle, hf, takeFault]⟩

theorem step_running {s : State} (h : s.status = .running) : step s = cycle s := by simp only [step, h]

theorem step_faulted {s : State} {f : Fault} (h : s.status = .faulted f) : step s = .fault f := by simp only [step, h]

/-- A step that answers a next state is a cycle of a running block. -/
theorem step_next {s t : State} (h : step s = .next t) : s.status = .running ∧ cycle s = .next t := by
  cases hs : s.status with
  | running => rw [step_running hs] at h; exact ⟨rfl, h⟩
  | faulted f => rw [step_faulted hs] at h; cases h

end Sys2Proof.Machine
end

