-- ==== Sys2Proof/Laws/PerInstr.lean ====
section
/-! SUPPORT. Statements made per instruction, about the instruction as syntax: its encoded word has the fixed bits of the row of
spec/opcode_table.json that bears its mnemonic. -/

namespace Sys2Proof.Laws.EncodesRow

/-- The encoded word of `i` matches a row of the opcode table under `i`'s own mnemonic. -/
def Statement (i : Instr) : Prop :=
  ∃ r ∈ opcodeTable, r.mnemonic = i.mnemonic ∧ r.Matches (encode i)

/-- A row at a place of the table, with its three facts. -/
theorem ofRow (k : Nat) (hk : k < opcodeTable.length) (i : Instr) (hm : opcodeTable[k].mnemonic = i.mnemonic)
    (hw : encode i &&& opcodeTable[k].mask = opcodeTable[k].pattern) : Statement i :=
  ⟨opcodeTable[k], List.getElem_mem hk, hm, hw⟩

theorem lb (rd rs1 : Reg) (imm : BitVec 12) : Statement (.lb rd rs1 imm) :=
  ofRow 0 (by decide) _ rfl (packI_mask _ _ _ _ _)

theorem lh (rd rs1 : Reg) (imm : BitVec 12) : Statement (.lh rd rs1 imm) :=
  ofRow 1 (by decide) _ rfl (packI_mask _ _ _ _ _)

theorem lw (rd rs1 : Reg) (imm : BitVec 12) : Statement (.lw rd rs1 imm) :=
  ofRow 2 (by decide) _ rfl (packI_mask _ _ _ _ _)

theorem ld (rd rs1 : Reg) (imm : BitVec 12) : Statement (.ld rd rs1 imm) :=
  ofRow 3 (by decide) _ rfl (packI_mask _ _ _ _ _)

theorem lbu (rd rs1 : Reg) (imm : BitVec 12) : Statement (.lbu rd rs1 imm) :=
  ofRow 4 (by decide) _ rfl (packI_mask _ _ _ _ _)

theorem lhu (rd rs1 : Reg) (imm : BitVec 12) : Statement (.lhu rd rs1 imm) :=
  ofRow 5 (by decide) _ rfl (packI_mask _ _ _ _ _)

theorem lwu (rd rs1 : Reg) (imm : BitVec 12) : Statement (.lwu rd rs1 imm) :=
  ofRow 6 (by decide) _ rfl (packI_mask _ _ _ _ _)

theorem addi (rd rs1 : Reg) (imm : BitVec 12) : Statement (.addi rd rs1 imm) :=
  ofRow 7 (by decide) _ rfl (packI_mask _ _ _ _ _)

theorem slli (rd rs1 : Reg) (shamt : BitVec 6) : Statement (.slli rd rs1 shamt) :=
  ofRow 8 (by decide) _ rfl (packShift64_mask _ _ _ _ _ _)

theorem slti (rd rs1 : Reg) (imm : BitVec 12) : Statement (.slti rd rs1 imm) :=
  ofRow 9 (by decide) _ rfl (packI_mask _ _ _ _ _)

theorem sltiu (rd rs1 : Reg) (imm : BitVec 12) : Statement (.sltiu rd rs1 imm) :=
  ofRow 10 (by decide) _ rfl (packI_mask _ _ _ _ _)

theorem xori (rd rs1 : Reg) (imm : BitVec 12) : Statement (.xori rd rs1 imm) :=
  ofRow 11 (by decide) _ rfl (packI_mask _ _ _ _ _)

theorem srli (rd rs1 : Reg) (shamt : BitVec 6) : Statement (.srli rd rs1 shamt) :=
  ofRow 12 (by decide) _ rfl (packShift64_mask _ _ _ _ _ _)

theorem srai (rd rs1 : Reg) (shamt : BitVec 6) : Statement (.srai rd rs1 shamt) :=
  ofRow 13 (by decide) _ rfl (packShift64_mask _ _ _ _ _ _)

theorem ori (rd rs1 : Reg) (imm : BitVec 12) : Statement (.ori rd rs1 imm) :=
  ofRow 14 (by decide) _ rfl (packI_mask _ _ _ _ _)

theorem andi (rd rs1 : Reg) (imm : BitVec 12) : Statement (.andi rd rs1 imm) :=
  ofRow 15 (by decide) _ rfl (packI_mask _ _ _ _ _)

theorem auipc (rd : Reg) (imm20 : BitVec 20) : Statement (.auipc rd imm20) :=
  ofRow 16 (by decide) _ rfl (packU_mask _ _ _)

theorem addiw (rd rs1 : Reg) (imm : BitVec 12) : Statement (.addiw rd rs1 imm) :=
  ofRow 18 (by decide) _ rfl (packI_mask _ _ _ _ _)

theorem slliw (rd rs1 : Reg) (shamt : BitVec 5) : Statement (.slliw rd rs1 shamt) :=
  ofRow 19 (by decide) _ rfl (packShift32_mask _ _ _ _ _ _)

theorem srliw (rd rs1 : Reg) (shamt : BitVec 5) : Statement (.srliw rd rs1 shamt) :=
  ofRow 20 (by decide) _ rfl (packShift32_mask _ _ _ _ _ _)

theorem sraiw (rd rs1 : Reg) (shamt : BitVec 5) : Statement (.sraiw rd rs1 shamt) :=
  ofRow 21 (by decide) _ rfl (packShift32_mask _ _ _ _ _ _)

theorem sb (rs2 rs1 : Reg) (imm : BitVec 12) : Statement (.sb rs2 rs1 imm) :=
  ofRow 22 (by decide) _ rfl (packS_mask _ _ _ _ _)

theorem sh (rs2 rs1 : Reg) (imm : BitVec 12) : Statement (.sh rs2 rs1 imm) :=
  ofRow 23 (by decide) _ rfl (packS_mask _ _ _ _ _)

theorem sw (rs2 rs1 : Reg) (imm : BitVec 12) : Statement (.sw rs2 rs1 imm) :=
  ofRow 24 (by decide) _ rfl (packS_mask _ _ _ _ _)

theorem sd (rs2 rs1 : Reg) (imm : BitVec 12) : Statement (.sd rs2 rs1 imm) :=
  ofRow 25 (by decide) _ rfl (packS_mask _ _ _ _ _)

theorem add (rd rs1 rs2 : Reg) : Statement (.add rd rs1 rs2) :=
  ofRow 26 (by decide) _ rfl (packR_mask _ _ _ _ _ _)

theorem mul (rd rs1 rs2 : Reg) : Statement (.mul rd rs1 rs2) :=
  ofRow 27 (by decide) _ rfl (packR_mask _ _ _ _ _ _)

theorem sub (rd rs1 rs2 : Reg) : Statement (.sub rd rs1 rs2) :=
  ofRow 28 (by decide) _ rfl (packR_mask _ _ _ _ _ _)

theorem sll (rd rs1 rs2 : Reg) : Statement (.sll rd rs1 rs2) :=
  ofRow 29 (by decide) _ rfl (packR_mask _ _ _ _ _ _)

theorem slt (rd rs1 rs2 : Reg) : Statement (.slt rd rs1 rs2) :=
  ofRow 30 (by decide) _ rfl (packR_mask _ _ _ _ _ _)

theorem sltu (rd rs1 rs2 : Reg) : Statement (.sltu rd rs1 rs2) :=
  ofRow 31 (by decide) _ rfl (packR_mask _ _ _ _ _ _)

theorem xor (rd rs1 rs2 : Reg) : Statement (.xor rd rs1 rs2) :=
  ofRow 32 (by decide) _ rfl (packR_mask _ _ _ _ _ _)

theorem srl (rd rs1 rs2 : Reg) : Statement (.srl rd rs1 rs2) :=
  ofRow 33 (by decide) _ rfl (packR_mask _ _ _ _ _ _)

theorem sra (rd rs1 rs2 : Reg) : Statement (.sra rd rs1 rs2) :=
  ofRow 34 (by decide) _ rfl (packR_mask _ _ _ _ _ _)

theorem or (rd rs1 rs2 : Reg) : Statement (.or rd rs1 rs2) :=
  ofRow 35 (by decide) _ rfl (packR_mask _ _ _ _ _ _)

theorem and (rd rs1 rs2 : Reg) : Statement (.and rd rs1 rs2) :=
  ofRow 36 (by decide) _ rfl (packR_mask _ _ _ _ _ _)

theorem lui (rd : Reg) (imm20 : BitVec 20) : Statement (.lui rd imm20) :=
  ofRow 17 (by decide) _ rfl (packU_mask _ _ _)

theorem addw (rd rs1 rs2 : Reg) : Statement (.addw rd rs1 rs2) :=
  ofRow 37 (by decide) _ rfl (packR_mask _ _ _ _ _ _)

theorem subw (rd rs1 rs2 : Reg) : Statement (.subw rd rs1 rs2) :=
  ofRow 38 (by decide) _ rfl (packR_mask _ _ _ _ _ _)

theorem sllw (rd rs1 rs2 : Reg) : Statement (.sllw rd rs1 rs2) :=
  ofRow 39 (by decide) _ rfl (packR_mask _ _ _ _ _ _)

theorem srlw (rd rs1 rs2 : Reg) : Statement (.srlw rd rs1 rs2) :=
  ofRow 40 (by decide) _ rfl (packR_mask _ _ _ _ _ _)

theorem sraw (rd rs1 rs2 : Reg) : Statement (.sraw rd rs1 rs2) :=
  ofRow 41 (by decide) _ rfl (packR_mask _ _ _ _ _ _)

theorem beq (rs1 rs2 : Reg) (off : BitVec 13) : Statement (.beq rs1 rs2 off) :=
  ofRow 42 (by decide) _ rfl (packB_mask _ _ _ _ _)

theorem bne (rs1 rs2 : Reg) (off : BitVec 13) : Statement (.bne rs1 rs2 off) :=
  ofRow 43 (by decide) _ rfl (packB_mask _ _ _ _ _)

theorem blt (rs1 rs2 : Reg) (off : BitVec 13) : Statement (.blt rs1 rs2 off) :=
  ofRow 44 (by decide) _ rfl (packB_mask _ _ _ _ _)

theorem bge (rs1 rs2 : Reg) (off : BitVec 13) : Statement (.bge rs1 rs2 off) :=
  ofRow 45 (by decide) _ rfl (packB_mask _ _ _ _ _)

theorem bltu (rs1 rs2 : Reg) (off : BitVec 13) : Statement (.bltu rs1 rs2 off) :=
  ofRow 46 (by decide) _ rfl (packB_mask _ _ _ _ _)

theorem bgeu (rs1 rs2 : Reg) (off : BitVec 13) : Statement (.bgeu rs1 rs2 off) :=
  ofRow 47 (by decide) _ rfl (packB_mask _ _ _ _ _)

theorem jalr (rd rs1 : Reg) (imm : BitVec 12) : Statement (.jalr rd rs1 imm) :=
  ofRow 48 (by decide) _ rfl (packI_mask _ _ _ _ _)

theorem jal (rd : Reg) (off : BitVec 21) : Statement (.jal rd off) :=
  ofRow 49 (by decide) _ rfl (packJ_mask _ _ _)

end Sys2Proof.Laws.EncodesRow
end

