-- ==== Sys2Proof/Tests/Slice0.lean ====
section
/-! SUPPORT. Tests of the model: ill-formed instructions, decoding, single steps, the host's entry points, and a witness for the hypotheses
of every statement that has some. Every expected result is the spec's (spec/95_test_vectors.md, or the rule named), none the model's. -/

open Sys2Proof Sys2Proof.Machine

/-! ## Helpers. The vectors hold for every `B` and `E`; the tests take those of the reference configuration (log entries 1, 2) -/

/-- `B`, `MEM_BASE` of the reference configuration. -/
abbrev BT : Word := 0x80000000#64

/-- `E`, one past its last RAM byte. -/
abbrev ET : Word := 0x88000000#64

/-- The reset state with the given registers (the others 0), the given bytes at `a`, the pc at `pc`, and the word there. -/
def testState (pc : Word) (w : InstrWord) (regs : List (Reg × Word)) (a : Nat) (bytes : List Byte) : State :=
  placeWordAtPc (regs.foldl (fun s r => s.setReg r.1 r.2)
    { State.reset with x := zeroRegs, pc := pc, mem := Memory.writeImage [] a bytes }) w

/-- One step answers a next state that meets `p`. -/
def stepMeets (s : State) (p : State → Bool) : Bool :=
  match step s with
  | .next t => p t
  | .fault _ => false
  | .refused _ => false

/-! ## Ill-formed instructions -/

theorem test_odd_beq_offset_refused : (Instr.beq 5 7 15#13).wellFormed = false := by decide
theorem test_odd_bne_offset_refused : (Instr.bne 5 7 1#13).wellFormed = false := by decide
theorem test_odd_blt_offset_refused : (Instr.blt 5 7 (-1#13)).wellFormed = false := by decide
theorem test_odd_bge_offset_refused : (Instr.bge 5 7 4095#13).wellFormed = false := by decide
theorem test_odd_bltu_offset_refused : (Instr.bltu 5 7 3#13).wellFormed = false := by decide
theorem test_odd_bgeu_offset_refused : (Instr.bgeu 5 7 (-4095#13)).wellFormed = false := by decide
theorem test_odd_jal_offset_refused : (Instr.jal 1 7#21).wellFormed = false := by decide
theorem test_even_offsets_accepted :
    (Instr.beq 5 7 (-4096#13)).wellFormed = true ∧ (Instr.jal 1 (-1048576#21)).wellFormed = true := by decide

/-! ## Decoding: one word per constructor, cut at the fields of R70 and R90 (spec/95_test_vectors.md part 2) -/

theorem test_decode_lb : decode 0b000000000000_00101_000_00110_0000011#32 = .ok (.lb 6 5 0#12) := by decide
theorem test_decode_lh : decode 0b000000000010_00101_001_00110_0000011#32 = .ok (.lh 6 5 2#12) := by decide
theorem test_decode_lw : decode 0b111111111100_00101_010_00110_0000011#32 = .ok (.lw 6 5 (-4#12)) := by decide
theorem test_decode_ld : decode 0b000000000001_00101_011_00110_0000011#32 = .ok (.ld 6 5 1#12) := by decide
theorem test_decode_lbu : decode 0b000000000000_00101_100_00110_0000011#32 = .ok (.lbu 6 5 0#12) := by decide
theorem test_decode_lhu : decode 0b000000000010_00101_101_00110_0000011#32 = .ok (.lhu 6 5 2#12) := by decide
theorem test_decode_lwu : decode 0b111111111100_00101_110_00110_0000011#32 = .ok (.lwu 6 5 (-4#12)) := by decide
theorem test_decode_addi : decode 0b100000000000_00101_000_00110_0010011#32 = .ok (.addi 6 5 (-2048#12)) := by decide
theorem test_decode_slli : decode 0b000000_111111_00101_001_00110_0010011#32 = .ok (.slli 6 5 63#6) := by decide
theorem test_decode_slti : decode 0b111111111111_00101_010_00110_0010011#32 = .ok (.slti 6 5 (-1#12)) := by decide
theorem test_decode_sltiu : decode 0b111111111111_00101_011_00110_0010011#32 = .ok (.sltiu 6 5 (-1#12)) := by decide
theorem test_decode_xori : decode 0b111111111111_00101_100_00110_0010011#32 = .ok (.xori 6 5 (-1#12)) := by decide
theorem test_decode_srli : decode 0b000000_100000_00101_101_00110_0010011#32 = .ok (.srli 6 5 32#6) := by decide
theorem test_decode_srai : decode 0b010000_111111_00101_101_00110_0010011#32 = .ok (.srai 6 5 63#6) := by decide
theorem test_decode_ori : decode 0b100000000000_00101_110_00110_0010011#32 = .ok (.ori 6 5 (-2048#12)) := by decide
theorem test_decode_andi : decode 0b011111111111_00101_111_00110_0010011#32 = .ok (.andi 6 5 2047#12) := by decide
theorem test_decode_auipc : decode 0b00000000000000000000_00110_0010111#32 = .ok (.auipc 6 0#20) := by decide
theorem test_decode_addiw : decode 0b000000000000_00101_000_00110_0011011#32 = .ok (.addiw 6 5 0#12) := by decide
theorem test_decode_slliw : decode 0b0000000_11111_00101_001_00110_0011011#32 = .ok (.slliw 6 5 31#5) := by decide
theorem test_decode_srliw : decode 0b0000000_00000_00101_101_00110_0011011#32 = .ok (.srliw 6 5 0#5) := by decide
theorem test_decode_sraiw : decode 0b0100000_11111_00101_101_00110_0011011#32 = .ok (.sraiw 6 5 31#5) := by decide
theorem test_decode_sb : decode 0b0000000_00110_00101_000_00000_0100011#32 = .ok (.sb 6 5 0#12) := by decide
theorem test_decode_sh : decode 0b0000000_00110_00101_001_00001_0100011#32 = .ok (.sh 6 5 1#12) := by decide
theorem test_decode_sw : decode 0b1111111_00110_00101_010_11100_0100011#32 = .ok (.sw 6 5 (-4#12)) := by decide
theorem test_decode_sd : decode 0b1111111_00110_00010_011_11000_0100011#32 = .ok (.sd 6 2 (-8#12)) := by decide
theorem test_decode_add : decode 0b0000000_00111_00101_000_00110_0110011#32 = .ok (.add 6 5 7) := by decide
theorem test_decode_mul : decode 0b0000001_00111_00101_000_00110_0110011#32 = .ok (.mul 6 5 7) := by decide
theorem test_decode_sub : decode 0b0100000_00111_00101_000_00110_0110011#32 = .ok (.sub 6 5 7) := by decide
theorem test_decode_sll : decode 0b0000000_00111_00101_001_00110_0110011#32 = .ok (.sll 6 5 7) := by decide
theorem test_decode_slt : decode 0b0000000_00111_00101_010_00110_0110011#32 = .ok (.slt 6 5 7) := by decide
theorem test_decode_sltu : decode 0b0000000_00111_00101_011_00110_0110011#32 = .ok (.sltu 6 5 7) := by decide
theorem test_decode_xor : decode 0b0000000_00101_00101_100_00110_0110011#32 = .ok (.xor 6 5 5) := by decide
theorem test_decode_srl : decode 0b0000000_00111_00101_101_00110_0110011#32 = .ok (.srl 6 5 7) := by decide
theorem test_decode_sra : decode 0b0100000_00111_00101_101_00110_0110011#32 = .ok (.sra 6 5 7) := by decide
theorem test_decode_or : decode 0b0000000_00111_00101_110_00110_0110011#32 = .ok (.or 6 5 7) := by decide
theorem test_decode_and : decode 0b0000000_00111_00101_111_00110_0110011#32 = .ok (.and 6 5 7) := by decide
theorem test_decode_lui : decode 0b10000000000000000000_00110_0110111#32 = .ok (.lui 6 524288#20) := by decide
theorem test_decode_addw : decode 0b0000000_00111_00101_000_00110_0111011#32 = .ok (.addw 6 5 7) := by decide
theorem test_decode_subw : decode 0b0100000_00111_00101_000_00110_0111011#32 = .ok (.subw 6 5 7) := by decide
theorem test_decode_sllw : decode 0b0000000_00111_00101_001_00110_0111011#32 = .ok (.sllw 6 5 7) := by decide
theorem test_decode_srlw : decode 0b0000000_00111_00101_101_00110_0111011#32 = .ok (.srlw 6 5 7) := by decide
theorem test_decode_sraw : decode 0b0100000_00111_00101_101_00110_0111011#32 = .ok (.sraw 6 5 7) := by decide
theorem test_decode_beq : decode 0b0_000000_00111_00101_000_1000_0_1100011#32 = .ok (.beq 5 7 16#13) := by decide
theorem test_decode_bne : decode 0b1_111111_00111_00101_001_1100_1_1100011#32 = .ok (.bne 5 7 (-8#13)) := by decide
theorem test_decode_blt : decode 0b0_000000_00111_00101_100_1000_0_1100011#32 = .ok (.blt 5 7 16#13) := by decide
theorem test_decode_bge : decode 0b0_000000_00111_00101_101_1000_0_1100011#32 = .ok (.bge 5 7 16#13) := by decide
theorem test_decode_bltu : decode 0b0_000000_00111_00101_110_1000_0_1100011#32 = .ok (.bltu 5 7 16#13) := by decide
theorem test_decode_bgeu : decode 0b0_000000_00111_00101_111_1000_0_1100011#32 = .ok (.bgeu 5 7 16#13) := by decide
theorem test_decode_jalr : decode 0b000000000100_00101_000_00101_1100111#32 = .ok (.jalr 5 5 4#12) := by decide
theorem test_decode_jal : decode 0b0_0000000100_0_00000000_00001_1101111#32 = .ok (.jal 1 8#21) := by decide

/-! Words that are no instruction: DECODE-1 to DECODE-16. -/

theorem test_reject_unknownOpcode : [0x00000000#32, 0xffffffff#32, 0x00000073#32, 0x0ff0000f#32, 0x00000001#32].all
    (fun w => decide (decode w = .error .unknownOpcode)) = true := by decide
theorem test_reject_unknownFunct3 : [0x0002f303#32, 0x0062c023#32, 0x0072a863#32, 0x000290e7#32].all
    (fun w => decide (decode w = .error .unknownFunct3)) = true := by decide
theorem test_reject_unknownSelector : [0x0272833b#32, 0x0272c333#32, 0x04029313#32, 0x8002d313#32, 0x0202d31b#32, 0x40729333#32, 0x04728333#32].all
    (fun w => decide (decode w = .error .unknownSelector)) = true := by decide

/-! ## One step each, from the vectors of spec/95_test_vectors.md part 2 (the name gives the vector) -/

theorem test_load_1_lb :
    stepMeets (testState (BT) 0x00028303#32 [(5, BT + 0x100#64)] (BT + 0x100#64).toNat [0x80#8])
      (fun t => t.reg 6 == 0xffffffffffffff80#64 && t.pc == BT + 0x4#64 && t.status == .running) = true := by
  decide
theorem test_load_13_lb :
    stepMeets (testState (BT) 0xfff28303#32 [(5, BT)] 0 [])
      (fun t => t.pc == BT + 0x4#64 && t.status == .faulted (.outOfBounds (BT - 0x1#64) 1)) = true := by
  decide
theorem test_load_3_lbu :
    stepMeets (testState (BT) 0x0002c303#32 [(5, BT + 0x100#64)] (BT + 0x100#64).toNat [0xFF#8])
      (fun t => t.reg 6 == 0xff#64 && t.pc == BT + 0x4#64 && t.status == .running) = true := by
  decide
theorem test_load_4_lh :
    stepMeets (testState (BT) 0x00229303#32 [(5, BT + 0x100#64)] (BT + 0x102#64).toNat [0x00#8, 0x80#8])
      (fun t => t.reg 6 == 0xffffffffffff8000#64 && t.pc == BT + 0x4#64 && t.status == .running) = true := by
  decide
theorem test_load_12_lh :
    stepMeets (testState (BT) 0xfff11303#32 [(2, ET)] 0 [])
      (fun t => t.pc == BT + 0x4#64 && t.status == .faulted (.outOfBounds (ET - 0x1#64) 2)) = true := by
  decide
theorem test_load_5_lhu :
    stepMeets (testState (BT) 0x0022d303#32 [(5, BT + 0x100#64)] (BT + 0x102#64).toNat [0x00#8, 0x80#8])
      (fun t => t.reg 6 == 0x8000#64 && t.pc == BT + 0x4#64 && t.status == .running) = true := by
  decide
theorem test_load_6_lw :
    stepMeets (testState (BT) 0xffc2a303#32 [(5, BT + 0x104#64)] (BT + 0x100#64).toNat [0x78#8, 0x56#8, 0x34#8, 0x92#8])
      (fun t => t.reg 6 == 0xffffffff92345678#64 && t.pc == BT + 0x4#64 && t.status == .running) = true := by
  decide
theorem test_load_14_lw :
    stepMeets (testState (BT) 0x0002a003#32 [(5, BT + 0x100#64)] (BT + 0x100#64).toNat [0x01#8, 0x02#8, 0x03#8, 0x04#8])
      (fun t => t.reg 0 == 0x0#64 && t.pc == BT + 0x4#64 && t.status == .running) = true := by
  decide
theorem test_load_7_lwu :
    stepMeets (testState (BT) 0xffc2e303#32 [(5, BT + 0x104#64)] (BT + 0x100#64).toNat [0x78#8, 0x56#8, 0x34#8, 0x92#8])
      (fun t => t.reg 6 == 0x92345678#64 && t.pc == BT + 0x4#64 && t.status == .running) = true := by
  decide
theorem test_load_9_ld :
    stepMeets (testState (BT) 0x0012b303#32 [(5, BT + 0x100#64)] (BT + 0x101#64).toNat [0x01#8, 0x02#8, 0x03#8, 0x04#8, 0x05#8, 0x06#8, 0x07#8, 0x08#8])
      (fun t => t.reg 6 == 0x807060504030201#64 && t.pc == BT + 0x4#64 && t.status == .running) = true := by
  decide
theorem test_load_10_ld :
    stepMeets (testState (BT) 0xff813303#32 [(2, ET)] (ET - 0x8#64).toNat [0xEF#8, 0xBE#8, 0xAD#8, 0xDE#8, 0x00#8, 0x00#8, 0x00#8, 0x00#8])
      (fun t => t.reg 6 == 0xdeadbeef#64 && t.pc == BT + 0x4#64 && t.status == .running) = true := by
  decide
theorem test_opimm_4_addi :
    stepMeets (testState (BT) 0x80028313#32 [(5, 0x0#64)] 0 [])
      (fun t => t.reg 6 == 0xfffffffffffff800#64 && t.pc == BT + 0x4#64 && t.status == .running) = true := by
  decide
theorem test_opimm_5_addi :
    stepMeets (testState (BT) 0x00728013#32 [(5, 0x1#64)] 0 [])
      (fun t => t.reg 0 == 0x0#64 && t.pc == BT + 0x4#64 && t.status == .running) = true := by
  decide
theorem test_opimm_6_slti :
    stepMeets (testState (BT) 0xfff2a313#32 [(5, 0xfffffffffffffffe#64)] 0 [])
      (fun t => t.reg 6 == 0x1#64 && t.pc == BT + 0x4#64 && t.status == .running) = true := by
  decide
theorem test_opimm_7_slti :
    stepMeets (testState (BT) 0x0002a313#32 [(5, 0x8000000000000000#64)] 0 [])
      (fun t => t.reg 6 == 0x1#64 && t.pc == BT + 0x4#64 && t.status == .running) = true := by
  decide
theorem test_opimm_8_sltiu :
    stepMeets (testState (BT) 0xfff2b313#32 [(5, 0x5#64)] 0 [])
      (fun t => t.reg 6 == 0x1#64 && t.pc == BT + 0x4#64 && t.status == .running) = true := by
  decide
theorem test_opimm_10_sltiu :
    stepMeets (testState (BT) 0x0012b313#32 [(5, 0x8000000000000000#64)] 0 [])
      (fun t => t.reg 6 == 0x0#64 && t.pc == BT + 0x4#64 && t.status == .running) = true := by
  decide
theorem test_opimm_11_xori :
    stepMeets (testState (BT) 0xfff2c313#32 [(5, 0xf#64)] 0 [])
      (fun t => t.reg 6 == 0xfffffffffffffff0#64 && t.pc == BT + 0x4#64 && t.status == .running) = true := by
  decide
theorem test_opimm_12_ori :
    stepMeets (testState (BT) 0x8002e313#32 [(5, 0xf#64)] 0 [])
      (fun t => t.reg 6 == 0xfffffffffffff80f#64 && t.pc == BT + 0x4#64 && t.status == .running) = true := by
  decide
theorem test_opimm_13_andi :
    stepMeets (testState (BT) 0x7ff2f313#32 [(5, 0xffffffffffffffff#64)] 0 [])
      (fun t => t.reg 6 == 0x7ff#64 && t.pc == BT + 0x4#64 && t.status == .running) = true := by
  decide
theorem test_opimm_14_slli :
    stepMeets (testState (BT) 0x03f29313#32 [(5, 0x3#64)] 0 [])
      (fun t => t.reg 6 == 0x8000000000000000#64 && t.pc == BT + 0x4#64 && t.status == .running) = true := by
  decide
theorem test_opimm_16_srli :
    stepMeets (testState (BT) 0x0202d313#32 [(5, 0x8000000000000000#64)] 0 [])
      (fun t => t.reg 6 == 0x80000000#64 && t.pc == BT + 0x4#64 && t.status == .running) = true := by
  decide
theorem test_opimm_17_srai :
    stepMeets (testState (BT) 0x43f2d313#32 [(5, 0x8000000000000000#64)] 0 [])
      (fun t => t.reg 6 == 0xffffffffffffffff#64 && t.pc == BT + 0x4#64 && t.status == .running) = true := by
  decide
theorem test_opimm_18_srai :
    stepMeets (testState (BT) 0x4202d313#32 [(5, 0x123456789abcdef#64)] 0 [])
      (fun t => t.reg 6 == 0x1234567#64 && t.pc == BT + 0x4#64 && t.status == .running) = true := by
  decide
theorem test_opimm_19_addiw :
    stepMeets (testState (BT) 0x0002831b#32 [(5, 0x1ffffffff#64)] 0 [])
      (fun t => t.reg 6 == 0xffffffffffffffff#64 && t.pc == BT + 0x4#64 && t.status == .running) = true := by
  decide
theorem test_opimm_20_addiw :
    stepMeets (testState (BT) 0x0012831b#32 [(5, 0x7fffffff#64)] 0 [])
      (fun t => t.reg 6 == 0xffffffff80000000#64 && t.pc == BT + 0x4#64 && t.status == .running) = true := by
  decide
theorem test_opimm_21_slliw :
    stepMeets (testState (BT) 0x01f2931b#32 [(5, 0xffffffff00000001#64)] 0 [])
      (fun t => t.reg 6 == 0xffffffff80000000#64 && t.pc == BT + 0x4#64 && t.status == .running) = true := by
  decide
theorem test_opimm_22_srliw :
    stepMeets (testState (BT) 0x0002d31b#32 [(5, 0x80000000#64)] 0 [])
      (fun t => t.reg 6 == 0xffffffff80000000#64 && t.pc == BT + 0x4#64 && t.status == .running) = true := by
  decide
theorem test_opimm_23_srliw :
    stepMeets (testState (BT) 0x01f2d31b#32 [(5, 0xffffffff80000000#64)] 0 [])
      (fun t => t.reg 6 == 0x1#64 && t.pc == BT + 0x4#64 && t.status == .running) = true := by
  decide
theorem test_opimm_24_sraiw :
    stepMeets (testState (BT) 0x41f2d31b#32 [(5, 0x80000000#64)] 0 [])
      (fun t => t.reg 6 == 0xffffffffffffffff#64 && t.pc == BT + 0x4#64 && t.status == .running) = true := by
  decide
theorem test_upper_1_lui :
    stepMeets (testState (BT) 0x80000337#32 [] 0 [])
      (fun t => t.reg 6 == 0xffffffff80000000#64 && t.pc == BT + 0x4#64 && t.status == .running) = true := by
  decide
theorem test_upper_3_lui :
    stepMeets (testState (BT) 0xfffff337#32 [] 0 [])
      (fun t => t.reg 6 == 0xfffffffffffff000#64 && t.pc == BT + 0x4#64 && t.status == .running) = true := by
  decide
theorem test_upper_4_auipc :
    stepMeets (testState (BT + 0x40#64) 0x00000317#32 [] 0 [])
      (fun t => t.reg 6 == BT + 0x40#64 && t.pc == BT + 0x44#64 && t.status == .running) = true := by
  decide
theorem test_upper_5_auipc :
    stepMeets (testState (BT + 0x2000#64) 0xfffff317#32 [] 0 [])
      (fun t => t.reg 6 == BT + 0x1000#64 && t.pc == BT + 0x2004#64 && t.status == .running) = true := by
  decide
theorem test_store_1_sb :
    stepMeets (testState (BT) 0x00628023#32 [(5, BT + 0x100#64), (6, 0x1122334455667788#64)] 0 [])
      (fun t => t.readByte ((BT + 0x100#64).toNat + 0) == 0x88#8 && t.pc == BT + 0x4#64 && t.status == .running) = true := by
  decide
theorem test_store_7_sb :
    stepMeets (testState (BT) 0xfe628fa3#32 [(5, BT), (6, 0x1122334455667788#64)] 0 [])
      (fun t => t.pc == BT + 0x4#64 && t.status == .faulted (.outOfBounds (BT - 0x1#64) 1)) = true := by
  decide
theorem test_store_2_sh :
    stepMeets (testState (BT) 0x006290a3#32 [(5, BT + 0x100#64), (6, 0x1122334455667788#64)] 0 [])
      (fun t => t.readByte ((BT + 0x101#64).toNat + 0) == 0x88#8 && t.readByte ((BT + 0x101#64).toNat + 1) == 0x77#8 && t.pc == BT + 0x4#64 && t.status == .running) = true := by
  decide
theorem test_store_3_sw :
    stepMeets (testState (BT) 0xfe62ae23#32 [(5, BT + 0x104#64), (6, 0x1122334455667788#64)] 0 [])
      (fun t => t.readByte ((BT + 0x100#64).toNat + 0) == 0x88#8 && t.readByte ((BT + 0x100#64).toNat + 1) == 0x77#8 && t.readByte ((BT + 0x100#64).toNat + 2) == 0x66#8 && t.readByte ((BT + 0x100#64).toNat + 3) == 0x55#8 && t.pc == BT + 0x4#64 && t.status == .running) = true := by
  decide
theorem test_store_8_sw :
    stepMeets (testState (BT) 0x0002a023#32 [(5, BT + 0x100#64)] (BT + 0x100#64).toNat [0xAA#8, 0xBB#8, 0xCC#8, 0xDD#8])
      (fun t => t.readByte ((BT + 0x100#64).toNat + 0) == 0x00#8 && t.readByte ((BT + 0x100#64).toNat + 1) == 0x00#8 && t.readByte ((BT + 0x100#64).toNat + 2) == 0x00#8 && t.readByte ((BT + 0x100#64).toNat + 3) == 0x00#8 && t.pc == BT + 0x4#64 && t.status == .running) = true := by
  decide
theorem test_store_5_sd :
    stepMeets (testState (BT) 0xfe613c23#32 [(2, ET), (6, 0x1122334455667788#64)] 0 [])
      (fun t => t.readByte ((ET - 0x8#64).toNat + 0) == 0x88#8 && t.readByte ((ET - 0x8#64).toNat + 1) == 0x77#8 && t.readByte ((ET - 0x8#64).toNat + 2) == 0x66#8 && t.readByte ((ET - 0x8#64).toNat + 3) == 0x55#8 && t.readByte ((ET - 0x8#64).toNat + 4) == 0x44#8 && t.readByte ((ET - 0x8#64).toNat + 5) == 0x33#8 && t.readByte ((ET - 0x8#64).toNat + 6) == 0x22#8 && t.readByte ((ET - 0x8#64).toNat + 7) == 0x11#8 && t.pc == BT + 0x4#64 && t.status == .running) = true := by
  decide
theorem test_store_6_sd :
    stepMeets (testState (BT) 0xfe613e23#32 [(2, ET), (6, 0x1122334455667788#64)] 0 [])
      (fun t => t.pc == BT + 0x4#64 && t.status == .faulted (.outOfBounds (ET - 0x4#64) 8)) = true := by
  decide
theorem test_op_2_add :
    stepMeets (testState (BT) 0x00728333#32 [(5, 0xffffffffffffffff#64), (7, 0x1#64)] 0 [])
      (fun t => t.reg 6 == 0x0#64 && t.pc == BT + 0x4#64 && t.status == .running) = true := by
  decide
theorem test_op_24_add :
    stepMeets (testState (BT) 0x00728033#32 [(5, 0x1#64), (7, 0x2#64)] 0 [])
      (fun t => t.reg 0 == 0x0#64 && t.pc == BT + 0x4#64 && t.status == .running) = true := by
  decide
theorem test_op_3_sub :
    stepMeets (testState (BT) 0x40728333#32 [(5, 0x0#64), (7, 0x1#64)] 0 [])
      (fun t => t.reg 6 == 0xffffffffffffffff#64 && t.pc == BT + 0x4#64 && t.status == .running) = true := by
  decide
theorem test_op_5_mul :
    stepMeets (testState (BT) 0x02728333#32 [(5, 0x100000000#64), (7, 0x100000000#64)] 0 [])
      (fun t => t.reg 6 == 0x0#64 && t.pc == BT + 0x4#64 && t.status == .running) = true := by
  decide
theorem test_op_7_mul :
    stepMeets (testState (BT) 0x02728333#32 [(5, 0xfffffffffffffffd#64), (7, 0x7#64)] 0 [])
      (fun t => t.reg 6 == 0xffffffffffffffeb#64 && t.pc == BT + 0x4#64 && t.status == .running) = true := by
  decide
theorem test_op_8_sll :
    stepMeets (testState (BT) 0x00729333#32 [(5, 0x1#64), (7, 0x41#64)] 0 [])
      (fun t => t.reg 6 == 0x2#64 && t.pc == BT + 0x4#64 && t.status == .running) = true := by
  decide
theorem test_op_9_srl :
    stepMeets (testState (BT) 0x0072d333#32 [(5, 0x8000000000000000#64), (7, 0x3f#64)] 0 [])
      (fun t => t.reg 6 == 0x1#64 && t.pc == BT + 0x4#64 && t.status == .running) = true := by
  decide
theorem test_op_10_sra :
    stepMeets (testState (BT) 0x4072d333#32 [(5, 0x8000000000000000#64), (7, 0xffffffffffffffff#64)] 0 [])
      (fun t => t.reg 6 == 0xffffffffffffffff#64 && t.pc == BT + 0x4#64 && t.status == .running) = true := by
  decide
theorem test_op_11_slt :
    stepMeets (testState (BT) 0x0072a333#32 [(5, 0xffffffffffffffff#64), (7, 0x1#64)] 0 [])
      (fun t => t.reg 6 == 0x1#64 && t.pc == BT + 0x4#64 && t.status == .running) = true := by
  decide
theorem test_op_12_sltu :
    stepMeets (testState (BT) 0x0072b333#32 [(5, 0xffffffffffffffff#64), (7, 0x1#64)] 0 [])
      (fun t => t.reg 6 == 0x0#64 && t.pc == BT + 0x4#64 && t.status == .running) = true := by
  decide
theorem test_op_14_xor :
    stepMeets (testState (BT) 0x0052c333#32 [(5, 0x1234#64)] 0 [])
      (fun t => t.reg 6 == 0x0#64 && t.pc == BT + 0x4#64 && t.status == .running) = true := by
  decide
theorem test_op_15_or :
    stepMeets (testState (BT) 0x0072e333#32 [(5, 0xf0#64), (7, 0xf#64)] 0 [])
      (fun t => t.reg 6 == 0xff#64 && t.pc == BT + 0x4#64 && t.status == .running) = true := by
  decide
theorem test_op_16_and :
    stepMeets (testState (BT) 0x0072f333#32 [(5, 0xf0f0#64), (7, 0xff00#64)] 0 [])
      (fun t => t.reg 6 == 0xf000#64 && t.pc == BT + 0x4#64 && t.status == .running) = true := by
  decide
theorem test_op_17_addw :
    stepMeets (testState (BT) 0x0072833b#32 [(5, 0x7fffffff#64), (7, 0x1#64)] 0 [])
      (fun t => t.reg 6 == 0xffffffff80000000#64 && t.pc == BT + 0x4#64 && t.status == .running) = true := by
  decide
theorem test_op_18_addw :
    stepMeets (testState (BT) 0x0072833b#32 [(5, 0xaaaaaaaa00000001#64), (7, 0x5555555500000002#64)] 0 [])
      (fun t => t.reg 6 == 0x3#64 && t.pc == BT + 0x4#64 && t.status == .running) = true := by
  decide
theorem test_op_19_subw :
    stepMeets (testState (BT) 0x4072833b#32 [(5, 0x0#64), (7, 0x1#64)] 0 [])
      (fun t => t.reg 6 == 0xffffffffffffffff#64 && t.pc == BT + 0x4#64 && t.status == .running) = true := by
  decide
theorem test_op_20_sllw :
    stepMeets (testState (BT) 0x0072933b#32 [(5, 0x1#64), (7, 0x3f#64)] 0 [])
      (fun t => t.reg 6 == 0xffffffff80000000#64 && t.pc == BT + 0x4#64 && t.status == .running) = true := by
  decide
theorem test_op_21_srlw :
    stepMeets (testState (BT) 0x0072d33b#32 [(5, 0xffffffff#64), (7, 0x0#64)] 0 [])
      (fun t => t.reg 6 == 0xffffffffffffffff#64 && t.pc == BT + 0x4#64 && t.status == .running) = true := by
  decide
theorem test_op_22_srlw :
    stepMeets (testState (BT) 0x0072d33b#32 [(5, 0xffffffff#64), (7, 0x4#64)] 0 [])
      (fun t => t.reg 6 == 0xfffffff#64 && t.pc == BT + 0x4#64 && t.status == .running) = true := by
  decide
theorem test_op_23_sraw :
    stepMeets (testState (BT) 0x4072d33b#32 [(5, 0x80000000#64), (7, 0x4#64)] 0 [])
      (fun t => t.reg 6 == 0xfffffffff8000000#64 && t.pc == BT + 0x4#64 && t.status == .running) = true := by
  decide
theorem test_branch_1_beq :
    stepMeets (testState (BT) 0x00728863#32 [(5, 0x3#64), (7, 0x3#64)] 0 [])
      (fun t => t.pc == BT + 0x10#64 && t.status == .running) = true := by
  decide
theorem test_branch_2_beq :
    stepMeets (testState (BT) 0x00728863#32 [(5, 0x3#64), (7, 0x4#64)] 0 [])
      (fun t => t.pc == BT + 0x4#64 && t.status == .running) = true := by
  decide
theorem test_branch_3_bne :
    stepMeets (testState (BT + 0x20#64) 0xfe729ce3#32 [(5, 0x1#64), (7, 0x0#64)] 0 [])
      (fun t => t.pc == BT + 0x18#64 && t.status == .running) = true := by
  decide
theorem test_branch_9_bne :
    stepMeets (testState (BT + 0x2000#64) 0x80729063#32 [(5, 0x1#64)] 0 [])
      (fun t => t.pc == BT + 0x1000#64 && t.status == .running) = true := by
  decide
theorem test_branch_4_blt :
    stepMeets (testState (BT) 0x0072c863#32 [(5, 0xffffffffffffffff#64), (7, 0x0#64)] 0 [])
      (fun t => t.pc == BT + 0x10#64 && t.status == .running) = true := by
  decide
theorem test_branch_5_bltu :
    stepMeets (testState (BT) 0x0072e863#32 [(5, 0xffffffffffffffff#64), (7, 0x0#64)] 0 [])
      (fun t => t.pc == BT + 0x4#64 && t.status == .running) = true := by
  decide
theorem test_branch_6_bge :
    stepMeets (testState (BT) 0x0072d863#32 [(5, 0x5#64), (7, 0x5#64)] 0 [])
      (fun t => t.pc == BT + 0x10#64 && t.status == .running) = true := by
  decide
theorem test_branch_7_bgeu :
    stepMeets (testState (BT) 0x0072f863#32 [(5, 0x0#64), (7, 0xffffffffffffffff#64)] 0 [])
      (fun t => t.pc == BT + 0x4#64 && t.status == .running) = true := by
  decide
theorem test_jump_1_jal :
    stepMeets (testState (BT) 0x008000ef#32 [] 0 [])
      (fun t => t.reg 1 == BT + 0x4#64 && t.pc == BT + 0x8#64 && t.status == .running) = true := by
  decide
theorem test_jump_3_jal :
    stepMeets (testState (BT) 0x7ff7f0ef#32 [] 0 [])
      (fun t => t.reg 1 == BT + 0x4#64 && t.pc == BT + 0x7FFFE#64 && t.status == .running) = true := by
  decide
theorem test_jump_5_jalr :
    stepMeets (testState (BT + 0x10#64) 0x004282e7#32 [(5, BT + 0x80#64)] 0 [])
      (fun t => t.reg 5 == BT + 0x14#64 && t.pc == BT + 0x84#64 && t.status == .running) = true := by
  decide
theorem test_jump_6_jalr :
    stepMeets (testState (BT) 0x00128067#32 [(5, BT + 0x80#64)] 0 [])
      (fun t => t.reg 0 == 0x0#64 && t.pc == BT + 0x81#64 && t.status == .running) = true := by
  decide
theorem test_decode_1_word :
    stepMeets (testState (BT) 0x00000000#32 [(5, 0x9#64)] 0 [])
      (fun t => t.pc == BT + 0x4#64 && t.status == .faulted (.unimplementedInstruction 0x00000000#32)) = true := by
  decide
theorem test_decode_18_word :
    stepMeets (testState (ET - 0x2#64) 0x00128313#32 [(5, 0x1#64)] 0 [])
      (fun t => t.pc == ET - 0x2#64 && t.status == .faulted (.outOfBounds (ET - 0x2#64) 4)) = true := by
  decide

/-! ## Reset, the host's entry points -/

/-- The host's placing of a word: the very next step after reset runs it (SRC-1). -/
theorem test_withFetchWord_runs_next : stepMeets (State.reset.withFetchWord 32 0x02A00293)
    (fun t => t.reg 5 == 42#64 && t.pc == BT + 4#64 && t.status == .running) = true := by decide
theorem test_decodeTableWord : decodeTableWord 32 0x02A00293 = some (.addi 5 0 42#12) := by decide
/-- With nothing loaded, the first word is 0 (log entry 6): DECODE-1. -/
theorem test_step_of_bare_reset : stepMeets State.reset
    (fun t => t.status == .faulted (.unimplementedInstruction 0#32) && t.pc == BT + 4#64) = true := by decide
/-- R32. -/
theorem test_reset_values : State.reset.reg 2 = ET ∧ State.reset.reg 1 = 0#64 ∧ State.reset.reg 31 = 0#64 ∧
    State.reset.pc = BT ∧ State.reset.status = .running ∧ State.reset.mem = [] := by decide
/-- R57, program P5: a step that stores, then the fetch of what it stored. -/
theorem test_bus_little_endian :
    (busStore State.reset BT 64#8 0x1122334455667788#64).toOption.map (fun t => (t.readByte 0x80000000, t.readByte 0x80000007)) =
      some (0x88#8, 0x11#8) := by decide
/-- R202: a width the bus does not have. -/
theorem test_unsupported_width : busLoad State.reset 0#64 24#8 = .error (.unsupportedWidth 24#8) := by rfl

/-! ## Witnesses: concrete states and operands that meet the hypotheses of each statement together, clause by clause -/

theorem witness_DecodeOfEncodeIsIdentity : (Instr.beq 5 7 (-4096#13)).wellFormed = true ∧ (Instr.jal 1 1048574#21).wellFormed = true := by
  decide

theorem witness_EncodeOfDecodeIsIdentity : ∃ w i, decode w = .ok i := ⟨0x02A00293#32, .addi 5 0 42#12, by decide⟩

theorem witness_OpcodeTableRowsAreDisjoint : ∃ r ∈ opcodeTable, r.Matches 0x02A00293#32 := by decide

theorem witness_DecoderAcceptsExactlyTheOpcodeTable :
    decode 0x4202D313#32 = .ok (.srai 6 5 32#6) ∧ ∃ r ∈ opcodeTable, r.Matches 0x4202D313#32 := by decide

/-- For each size: the width, the lowest and highest address inside, the nearest addresses outside on both sides. -/
abbrev SizeWitness (c : Config) (width : BitVec 8) (n : Nat) : Prop :=
  n ∈ [1, 2, 4, 8] ∧ width.toNat = 8 * n ∧ InBounds c BT n ∧ InBounds c (ET - BitVec.ofNat 64 n) n ∧
    ¬ InBounds c (BT - 1#64) n ∧ ¬ InBounds c (ET - BitVec.ofNat 64 n + 1#64) n ∧ ¬ InBounds c ET n

theorem witness_BusLoadContract : (0#8).toNat ∉ [8, 16, 32, 64] ∧ SizeWitness State.reset.cfg 8#8 1 ∧ SizeWitness State.reset.cfg 16#8 2 ∧
    SizeWitness State.reset.cfg 32#8 4 ∧ SizeWitness State.reset.cfg 64#8 8 := by decide

theorem witness_BusStoreContract : (255#8).toNat ∉ [8, 16, 32, 64] ∧ SizeWitness State.reset.cfg 8#8 1 ∧
    SizeWitness State.reset.cfg 16#8 2 ∧ SizeWitness State.reset.cfg 32#8 4 ∧ SizeWitness State.reset.cfg 64#8 8 := by decide

theorem witness_StoreThenLoadReturnsTheMaskedValue : State.reset.cfg.Valid ∧
    (∀ n ∈ [1, 2, 4, 8], n ≤ State.reset.cfg.memSize) ∧ SizeWitness State.reset.cfg 8#8 1 ∧ SizeWitness State.reset.cfg 16#8 2 ∧
    SizeWitness State.reset.cfg 32#8 4 ∧ SizeWitness State.reset.cfg 64#8 8 := by decide

theorem witness_MixedWidthReadsAreLittleEndian : State.reset.cfg.Valid ∧ InBounds State.reset.cfg BT 8 ∧
    InBounds State.reset.cfg (ET - 8#64) 8 := by decide

theorem witness_FetchReadsTheWordAtThePc : State.reset.FetchInBounds ∧ (setPc (ET - 4#64) State.reset).FetchInBounds ∧
    ¬ (setPc (ET - 3#64) State.reset).FetchInBounds ∧ ¬ (setPc (BT - 1#64) State.reset).FetchInBounds := by decide

/-- The reset state with `x5 = v`, for accesses at `0(x5)`. -/
abbrev baseAt (v : Word) : State := State.reset.setReg 5 v

/-- An access of `n` bytes at `0(x5)`: inside at both ends of RAM, outside on both sides. -/
abbrev LoadWitness (n : Nat) : Prop :=
  InBounds (baseAt BT).cfg (loadAddr (baseAt BT) 5 0#12) n ∧
  InBounds (baseAt (ET - BitVec.ofNat 64 n)).cfg (loadAddr (baseAt (ET - BitVec.ofNat 64 n)) 5 0#12) n ∧
  ¬ InBounds (baseAt BT).cfg (loadAddr (baseAt BT) 5 (-1#12)) n ∧ ¬ InBounds (baseAt ET).cfg (loadAddr (baseAt ET) 5 0#12) n

theorem witness_SignedLoads : LoadWitness 1 ∧ LoadWitness 2 ∧ LoadWitness 4 := by decide
theorem witness_UnsignedLoads : LoadWitness 8 ∧ LoadWitness 1 ∧ LoadWitness 2 ∧ LoadWitness 4 := by decide

/-- The same for stores. -/
abbrev StoreWitness (n : Nat) : Prop :=
  InBounds (baseAt BT).cfg (storeAddr (baseAt BT) 5 0#12) n ∧
  InBounds (baseAt (ET - BitVec.ofNat 64 n)).cfg (storeAddr (baseAt (ET - BitVec.ofNat 64 n)) 5 0#12) n ∧
  ¬ InBounds (baseAt BT).cfg (storeAddr (baseAt BT) 5 (-1#12)) n ∧ ¬ InBounds (baseAt ET).cfg (storeAddr (baseAt ET) 5 0#12) n

theorem witness_StoresWriteExactlyTheirBytes : StoreWitness 1 ∧ StoreWitness 2 ∧ StoreWitness 4 ∧ StoreWitness 8 := by decide

theorem witness_WordResultsDependOnLowHalvesOnly :
    Instr.addw 6 5 7 ∈ [Instr.addiw 6 5 0#12, .slliw 6 5 0#5, .srliw 6 5 0#5, .sraiw 6 5 0#5,
        .addw 6 5 7, .subw 6 5 7, .sllw 6 5 7, .srlw 6 5 7, .sraw 6 5 7] ∧
    ((baseAt 0x1_80000000#64).reg 5).toNat % 2 ^ 32 = ((baseAt 0x80000000#64).reg 5).toNat % 2 ^ 32 ∧
    ((baseAt 0x1_80000000#64).reg 7).toNat % 2 ^ 32 = ((baseAt 0x80000000#64).reg 7).toNat % 2 ^ 32 ∧
    (baseAt 0x1_80000000#64).reg 5 ≠ (baseAt 0x80000000#64).reg 5 := by decide

theorem witness_EqualityBranches : branchOffsetEven (-4096#13) = true ∧ branchOffsetEven 4094#13 = true := by decide
theorem witness_SignedBranches : branchOffsetEven (-4096#13) = true ∧ branchOffsetEven 4094#13 = true := by decide
theorem witness_UnsignedBranches : branchOffsetEven (-4096#13) = true ∧ branchOffsetEven 4094#13 = true := by decide
theorem witness_JumpsAndLinks : jumpOffsetEven (-1048576#21) = true ∧ jumpOffsetEven 1048574#21 = true := by decide

/-- BRANCH-1, JUMP-1, UPPER-4. -/
theorem witness_StepsAreRelativeToTheOwnAddress :
    (let s := testState BT 0x00728863#32 [(5, 3#64), (7, 3#64)] 0 []
     s.status = .running ∧ InBounds s.cfg s.pc 4 ∧ s.bytesValue s.pc.toNat 4 = (encode (.beq 5 7 16#13)).toNat ∧
       branchOffsetEven 16#13 = true ∧ s.reg 5 = s.reg 7) ∧
    (let s := testState BT 0x008000EF#32 [] 0 []
     s.status = .running ∧ InBounds s.cfg s.pc 4 ∧ s.bytesValue s.pc.toNat 4 = (encode (.jal 1 8#21)).toNat ∧
       jumpOffsetEven 8#21 = true) ∧
    (let s := testState BT 0x00000317#32 [] 0 []
     s.status = .running ∧ InBounds s.cfg s.pc 4 ∧ s.bytesValue s.pc.toNat 4 = (encode (.auipc 6 0#20)).toNat) := by decide

theorem witness_StepIsFetchAdvanceExecute :
    (let s := setPc (ET - 3#64) State.reset
     s.status = .running ∧ ¬ InBounds s.cfg s.pc 4) ∧
    (let s := setPc (ET - 4#64) State.reset
     s.status = .running ∧ InBounds s.cfg s.pc 4 ∧ ∀ i, decode (BitVec.ofNat 32 (s.bytesValue s.pc.toNat 4)) ≠ .ok i) ∧
    (let s := testState BT 0x02A00293#32 [] 0 []
     s.status = .running ∧ InBounds s.cfg s.pc 4 ∧
       decode (BitVec.ofNat 32 (s.bytesValue s.pc.toNat 4)) = .ok (.addi 5 0 42#12)) := by
  refine ⟨by decide, ⟨by decide, by decide, fun i h => ?_⟩, by decide⟩
  rw [show decode _ = .error .unknownOpcode by decide] at h
  cases h

theorem witness_StepRunsTheEncodedInstruction :
    let s := testState (ET - 4#64) 0x00128313#32 [(5, 1#64)] 0 []
    s.status = .running ∧ InBounds s.cfg s.pc 4 ∧ (Instr.addi 6 5 1#12).wellFormed = true ∧
      s.bytesValue s.pc.toNat 4 = (encode (.addi 6 5 1#12)).toNat := by decide

/-- Both states of the run status are there: the second step of DECODE-2 stops with its fault. -/
theorem witness_StepStopsExactlyWhenFaulted : State.reset.status = .running ∧
    ∃ t, step (testState BT 0xFFFFFFFF#32 [] 0 []) = .next t ∧ t.status = .faulted (.unimplementedInstruction 0xFFFFFFFF#32) :=
  ⟨rfl, _, rfl, by decide⟩

/-- LOAD-11 and STORE-7. -/
theorem witness_FaultingInstructionsHaveNoEffect :
    (∃ t, (baseAt ET).status = .running ∧ exec (.lb 6 5 0#12) (baseAt ET) = .next t ∧ t.status ≠ .running) ∧
    (∃ t, (baseAt BT).status = .running ∧ exec (.sb 6 5 (-1#12)) (baseAt BT) = .next t ∧ t.status ≠ .running) :=
  ⟨⟨_, rfl, rfl, by decide⟩, ⟨_, rfl, rfl, by decide⟩⟩

theorem witness_OnlyTheDestinationRegisterChanges :
    ∃ t, exec (.addi 6 5 1#12) State.reset = .next t ∧ (Instr.addi 6 5 1#12).dest ≠ some 5 := ⟨_, rfl, by decide⟩

theorem witness_OnlyStoresChangeMemory :
    ∃ t, exec (.lw 6 5 0#12) (baseAt BT) = .next t ∧ (Instr.lw 6 5 0#12).isStore = false := ⟨_, rfl, rfl⟩

theorem witness_OnlyControlTransfersMoveThePc :
    ∃ t, exec (.sw 6 5 0#12) (baseAt BT) = .next t ∧ (Instr.sw 6 5 0#12).isControlTransfer = false := ⟨_, rfl, rfl⟩

theorem witness_NoStepRaisesUnsupportedWidth : ∃ t, step State.reset = .next t := ⟨_, rfl⟩

/-- STORE-4's state, which lists a word in memory, and its step. -/
theorem witness_StepKeepsTheInvariant :
    (testState BT 0x0062B023#32 [(5, BT + 0x100#64), (6, 0x1122334455667788#64)] 0 []).Inv ∧
    ∃ t, step (testState BT 0x0062B023#32 [(5, BT + 0x100#64), (6, 0x1122334455667788#64)] 0 []) = .next t :=
  ⟨⟨by decide, by decide, by decide, by decide, fun f h => by cases h⟩, _, rfl⟩

theorem witness_InitializeMeetsTheInvariant : referenceConfig.Valid ∧ Memory.wf [(0x80000004, 0xAA#8)] ∧
    Memory.InWindow referenceConfig [(0x80000004, 0xAA#8)] ∧ [0x13#8, 0#8, 0#8, 0#8].length ≤ referenceConfig.memSize := by decide

theorem witness_StepKeepsTheConfiguration : ∃ t, step (testState BT 0x02A00293#32 [] 0 []) = .next t := ⟨_, rfl⟩

/-- The smallest RAM, with an image that fills it and one that does not fit. -/
theorem witness_InitializeSetsEveryPieceOfState :
    [0x93#8, 0x02#8, 0xA0#8, 0x02#8].length ≤ (⟨BT, 4⟩ : Config).memSize ∧ 3 < [0x93#8, 0x02#8, 0xA0#8, 0x02#8].length ∧
    (BT.toNat + 3 < BT.toNat ∨ BT.toNat + [0x93#8, 0x02#8, 0xA0#8].length ≤ BT.toNat + 3) ∧
    (⟨BT, 4⟩ : Config).memSize < [0#8, 0#8, 0#8, 0#8, 0#8].length := by decide

/-- SRC-1's bytes. -/
theorem witness_FirstCycleRunsTheFirstImageWord :
    ([0x93#8, 0x02#8, 0xA0#8, 0x02#8] : List Byte).length ≤ referenceConfig.memSize ∧
    decode (0x02#8 ++ 0xA0#8 ++ 0x02#8 ++ 0x93#8) = .ok (.addi 5 0 42#12) := by decide

theorem witness_InitialStackPointerIsOnePastRam : referenceConfig.Valid ∧
    (∃ t, hostInitialize referenceConfig [] [0x13#8] = .next t) ∧ ∀ n ∈ [1, 2, 4, 8], n ≤ referenceConfig.memSize :=
  ⟨by decide, ⟨_, rfl⟩, by decide⟩

/-- `sw x6, 4(x5)` at `B` with `x5 = B`, storing the word of `addi x5, x0, 42`. -/
theorem witness_StoredInstructionRunsNext :
    let s := testState BT 0x0062A223#32 [(5, BT), (6, 0xFFFFFFFF02A00293#64)] 0 []
    s.status = .running ∧ InBounds s.cfg s.pc 4 ∧ InBounds s.cfg (s.pc + 4#64) 4 ∧
      s.bytesValue s.pc.toNat 4 = (encode (.sw 6 5 4#12)).toNat ∧ storeAddr s 5 4#12 = s.pc + 4#64 ∧
      (Instr.addi 5 0 42#12).wellFormed = true ∧ (s.reg 6).toNat % 2 ^ 32 = (encode (.addi 5 0 42#12)).toNat := by decide

theorem witness_PlacedWordRunsNext : State.reset.status = .running ∧ InBounds State.reset.cfg State.reset.pc 4 ∧
    decodeTableWord 32 0x02A00293 = some (.addi 5 0 42#12) := by decide
end

/-! The five immediates (spec/30_encoding.md R75 to R79) as weighted sums of a word's fields. In a concatenation the leading part is signed and every
later part counts as it stands; a field that leads with `w[31]` is that bit, counted negatively, over the rest of the field. -/

namespace Sys2Proof.Machine

/-- A single bit taken as signed. -/
theorem toInt_bit (b : BitVec 1) : b.toInt = -(b.toNat : Int) := by
  revert b
  decide

/-- A concatenation as a signed sum: the leading part keeps the sign. -/
theorem toInt_append_add {m n : Nat} (hm : m ≠ 0) (x : BitVec m) (y : BitVec n) :
    (x ++ y).toInt = 2 ^ n * x.toInt + y.toNat := by
  rw [BitVec.toInt_append, if_neg (by simpa using hm)]

/-- A field taken as signed: its top bit counts negatively over the rest. -/
theorem toInt_field {k : Nat} (w : BitVec k) (lo len : Nat) :
    (w.extractLsb' lo (len + 1)).toInt = (w.extractLsb' lo len).toNat - 2 ^ len * (w.extractLsb' (lo + len) 1).toNat := by
  have cut : w.extractLsb' (lo + len) 1 ++ w.extractLsb' lo len = w.extractLsb' lo (1 + len) :=
    BitVec.extractLsb'_append_extractLsb'_eq_extractLsb' rfl
  rw [Nat.add_comm len 1, ← cut, toInt_append_add Nat.one_ne_zero, toInt_bit]
  ring

/-! ## The extension to 64 bits keeps the signed value -/

theorem toInt_immI (imm : BitVec 12) : (immI imm).toInt = imm.toInt := BitVec.toInt_signExtend_of_le (by decide)

theorem toInt_immS (imm : BitVec 12) : (immS imm).toInt = imm.toInt := BitVec.toInt_signExtend_of_le (by decide)

theorem toInt_immB (off : BitVec 13) : (immB off).toInt = off.toInt := BitVec.toInt_signExtend_of_le (by decide)

theorem toInt_immJ (off : BitVec 21) : (immJ off).toInt = off.toInt := BitVec.toInt_signExtend_of_le (by decide)

/-- The twelve zeros below the 20 bits are a factor 4096. -/
theorem toInt_immU (imm20 : BitVec 20) : (immU imm20).toInt = 4096 * imm20.toInt := by
  rw [immU, BitVec.toInt_signExtend_of_le (by decide), toInt_append_add (by decide), BitVec.toNat_zero]
  norm_num

/-! ## The fields before extension, as signed integers -/

/-- R75. -/
theorem toInt_fieldImmI (w : InstrWord) :
    (fieldImmI w).toInt = (w.extractLsb' 20 11).toNat - 2048 * (w.extractLsb' 31 1).toNat :=
  toInt_field w 20 11

/-- R76. -/
theorem toInt_fieldImmS (w : InstrWord) :
    (fieldImmS w).toInt =
      32 * (w.extractLsb' 25 6).toNat + (w.extractLsb' 7 5).toNat - 2048 * (w.extractLsb' 31 1).toNat := by
  rw [fieldImmS, toInt_append_add (by decide), toInt_field w 25 6]
  ring

/-- R77. -/
theorem toInt_fieldImmB (w : InstrWord) :
    (fieldImmB w).toInt =
      2048 * (w.extractLsb' 7 1).toNat + 32 * (w.extractLsb' 25 6).toNat + 2 * (w.extractLsb' 8 4).toNat
        - 4096 * (w.extractLsb' 31 1).toNat := by
  rw [fieldImmB, toInt_append_add (by decide), toInt_append_add (by decide), toInt_append_add (by decide),
    toInt_append_add (by decide), toInt_bit, BitVec.toNat_zero]
  ring

/-- R78. -/
theorem toInt_fieldImmU (w : InstrWord) :
    (fieldImmU w).toInt = (w.extractLsb' 12 19).toNat - 524288 * (w.extractLsb' 31 1).toNat :=
  toInt_field w 12 19

/-- R79. -/
theorem toInt_fieldImmJ (w : InstrWord) :
    (fieldImmJ w).toInt =
      4096 * (w.extractLsb' 12 8).toNat + 2048 * (w.extractLsb' 20 1).toNat + 2 * (w.extractLsb' 21 10).toNat
        - 1048576 * (w.extractLsb' 31 1).toNat := by
  rw [fieldImmJ, toInt_append_add (by decide), toInt_append_add (by decide), toInt_append_add (by decide),
    toInt_append_add (by decide), toInt_bit, BitVec.toNat_zero]
  ring

/-- Settles O6: each extension keeps the signed value of its field (`immU` times 4096), and each field is its weighted sum. -/
theorem immediatesFollowTheirFormulas : Obligations.ImmediatesFollowTheirFormulas := by
  intro w
  refine ⟨?_, ?_, ?_, ?_, ?_⟩
  · exact (toInt_immI _).trans (toInt_fieldImmI w)
  · exact (toInt_immS _).trans (toInt_fieldImmS w)
  · exact (toInt_immB _).trans (toInt_fieldImmB w)
  · rw [toInt_immU, toInt_fieldImmU]
    ring
  · exact (toInt_immJ _).trans (toInt_fieldImmJ w)

end Sys2Proof.Machine

/-! The W instructions see only the low 32 bits of their operands (spec/40_engine.md R108). A W operation is a function of its operands'
low halves, an amount in a register (its low 5 bits) included, and a sign-extended result is the sign extension of its own low half. -/

namespace Sys2Proof.Machine

/-! ## The low half -/

theorem lowWord_eq_of_mod {a b : Word} (h : a.toNat % 2 ^ 32 = b.toNat % 2 ^ 32) : lowWord a = lowWord b :=
  BitVec.eq_of_toNat_eq (by rw [toNat_lowWord, toNat_lowWord, h])

/-- The amount of a W register shift lies in the low half. -/
theorem regShamt5_eq_of_mod {a b : Word} (h : a.toNat % 2 ^ 32 = b.toNat % 2 ^ 32) : regShamt5 a = regShamt5 b := by
  rw [regShamt5_eq, regShamt5_eq]
  omega

/-- No carry goes down from the upper half. -/
theorem lowWord_add (a b : Word) : lowWord (a + b) = lowWord a + lowWord b := BitVec.setWidth_add a b (by decide)

/-- No borrow goes down from the upper half. -/
theorem lowWord_sub (a b : Word) : lowWord (a - b) = lowWord a - lowWord b :=
  eq_sub_of_add_eq (by rw [← lowWord_add, sub_add_cancel])

theorem lowWord_wResult (v : BitVec 32) : lowWord (wResult v) = v := by
  ext i hi
  have below : i < 64 := by omega
  simp [lowWord, wResult, BitVec.getElem_signExtend, hi, below]

/-- A W result is the sign extension of its own low half. -/
theorem toInt_wResult (v : BitVec 32) : (wResult v).toInt = Int.bmod (wResult v).toNat (2 ^ 32) := by
  rw [← toInt_lowWord, lowWord_wResult, wResult, BitVec.toInt_signExtend_of_le (by decide)]

/-! ## The W operations on operands with equal low halves -/

theorem addw_congr {a a' b b' : Word} (ha : lowWord a = lowWord a') (hb : lowWord b = lowWord b') : addw a b = addw a' b' := by
  rw [addw, addw, lowWord_add, lowWord_add, ha, hb]

theorem subw_congr {a a' b b' : Word} (ha : lowWord a = lowWord a') (hb : lowWord b = lowWord b') : subw a b = subw a' b' := by
  rw [subw, subw, lowWord_sub, lowWord_sub, ha, hb]

theorem shlw_congr {v v' : Word} {n n' : Nat} (hv : lowWord v = lowWord v') (hn : n = n') : shlw v n = shlw v' n' := by
  rw [shlw, shlw, hv, hn]

theorem shrLogicalW_congr {v v' : Word} {n n' : Nat} (hv : lowWord v = lowWord v') (hn : n = n') :
    shrLogicalW v n = shrLogicalW v' n' := by
  rw [shrLogicalW, shrLogicalW, hv, hn]

theorem shrArithW_congr {v v' : Word} {n n' : Nat} (hv : lowWord v = lowWord v') (hn : n = n') :
    shrArithW v n = shrArithW v' n' := by
  rw [shrArithW, shrArithW, hv, hn]

/-! ## The written result -/

/-- Equal W results written in two states: the destination reads the same sign-extended value, rd = x0 included. -/
theorem writeResult_word (rd : Reg) {v v' : Word} (h : v = v') (hw : ∃ r, v = wResult r) (s s' : State) :
    ∃ t t', writeResult rd v s = .next t ∧ writeResult rd v' s' = .next t' ∧ t.reg rd = t'.reg rd ∧
      (t.reg rd).toInt = Int.bmod (t.reg rd).toNat (2 ^ 32) := by
  obtain ⟨r, rfl⟩ := hw
  subst h
  refine ⟨_, _, rfl, rfl, ?_, ?_⟩
  · rw [State.reg_setReg_same, State.reg_setReg_same]
  · rw [State.reg_setReg_same]
    split
    · decide
    · exact toInt_wResult r

/-- Settles O27: each of the nine writes a W result that the operands' low halves determine. -/
theorem wordResultsDependOnLowHalvesOnly : Obligations.WordResultsDependOnLowHalvesOnly := by
  intro rd rs1 rs2 imm shamt i hi s s' h1 h2
  have low1 : lowWord (s.reg rs1) = lowWord (s'.reg rs1) := lowWord_eq_of_mod h1
  have low2 : lowWord (s.reg rs2) = lowWord (s'.reg rs2) := lowWord_eq_of_mod h2
  have amount : regShamt5 (s.reg rs2) = regShamt5 (s'.reg rs2) := regShamt5_eq_of_mod h2
  simp only [List.mem_cons, List.not_mem_nil, or_false] at hi
  rcases hi with rfl | rfl | rfl | rfl | rfl | rfl | rfl | rfl | rfl
  · exact writeResult_word rd (addw_congr low1 rfl) ⟨_, rfl⟩ s s'
  · exact writeResult_word rd (shlw_congr low1 rfl) ⟨_, rfl⟩ s s'
  · exact writeResult_word rd (shrLogicalW_congr low1 rfl) ⟨_, rfl⟩ s s'
  · exact writeResult_word rd (shrArithW_congr low1 rfl) ⟨_, rfl⟩ s s'
  · exact writeResult_word rd (addw_congr low1 low2) ⟨_, rfl⟩ s s'
  · exact writeResult_word rd (subw_congr low1 low2) ⟨_, rfl⟩ s s'
  · exact writeResult_word rd (shlw_congr low1 amount) ⟨_, rfl⟩ s s'
  · exact writeResult_word rd (shrLogicalW_congr low1 amount) ⟨_, rfl⟩ s s'
  · exact writeResult_word rd (shrArithW_congr low1 amount) ⟨_, rfl⟩ s s'

end Sys2Proof.Machine

/-! ADDI (spec/42_op_imm.md R131): the word that carries it, and its sum on integers, narrowed once. -/

namespace Sys2Proof.Machine

/-- An I-format word with opcode 0x13 and funct3 0 decodes to ADDI of its fields (R90). -/
theorem decode_packI_addi (rd rs1 : Reg) (imm : BitVec 12) :
    decode (packI imm rs1 0b000#3 rd 0x13#7) = .ok (.addi rd rs1 imm) := by
  simp only [decode, opcode_packI, decodeOpImm, funct3_packI, fieldRd_packI, fieldRs1_packI, fieldImmI_packI]

/-- ADDI ends by writing the integer sum modulo 2^64 to `rd`. -/
theorem exec_addi (rd rs1 : Reg) (imm : BitVec 12) (s : State) :
    exec (.addi rd rs1 imm) s = .next (s.setReg rd (BitVec.ofInt 64 ((s.reg rs1).toNat + imm.toInt))) := by
  rw [← add_signExtend_eq]
  rfl

/-- Settles O16: the encoding decodes to ADDI, which only writes the sum to `rd`. -/
theorem addImmediate : Obligations.AddImmediate := by
  intro rd rs1 imm s
  exact ⟨decode_packI_addi rd rs1 imm, _, exec_addi rd rs1 imm s, setReg_onlyWrites s rd _⟩

end Sys2Proof.Machine

/-! AUIPC and LUI (spec/43_upper_immediate.md R150 to R152): the opcode alone selects them, and their results are sums on integers, narrowed once. -/

namespace Sys2Proof.Machine

/-! ## The words -/

/-- A U-format word with opcode 0x17 decodes to AUIPC of its fields, whatever they are (R150). -/
theorem decode_packU_auipc (rd : Reg) (imm20 : BitVec 20) : decode (packU imm20 rd 0x17#7) = .ok (.auipc rd imm20) := by
  simp only [decode, opcode_packU, fieldRd_packU, fieldImmU_packU]

/-- A U-format word with opcode 0x37 decodes to LUI of its fields, whatever they are (R150). -/
theorem decode_packU_lui (rd : Reg) (imm20 : BitVec 20) : decode (packU imm20 rd 0x37#7) = .ok (.lui rd imm20) := by
  simp only [decode, opcode_packU, fieldRd_packU, fieldImmU_packU]

/-! ## The results -/

/-- The 20 bits above twelve zeros, taken as signed: 4096 times their value, wrapped to 32 bits (R78). -/
theorem toInt_append_zeros (imm20 : BitVec 20) :
    (imm20 ++ 0#12).toInt = Int.bmod (4096 * imm20.toNat : Nat) (2 ^ 32) := by
  rw [BitVec.toInt_eq_toNat_bmod, toNat_append_add, BitVec.toNat_zero, Nat.add_zero, Nat.mul_comm]
  norm_num

/-- The instruction's own address is four below `pc`, modulo 2^64 (R101). -/
theorem instrAddr_eq (s : State) : instrAddr s = BitVec.ofInt 64 (s.pc.toNat - 4) := by
  rw [Int.sub_eq_add_neg, BitVec.ofInt_add, BitVec.ofInt_neg, BitVec.ofInt_natCast, BitVec.ofNat_toNat, BitVec.setWidth_eq]
  exact BitVec.sub_eq_add_neg s.pc 4#64

/-- The instruction's own address plus a sign-extended offset, on integers. -/
theorem instrAddr_add_signExtend_eq {n : Nat} (s : State) (off : BitVec n) :
    instrAddr s + off.signExtend 64 = BitVec.ofInt 64 (s.pc.toNat - 4 + off.toInt) := by
  rw [instrAddr_eq, signExtend_eq, ← BitVec.ofInt_add]

/-- AUIPC ends by writing its own address plus the immediate to `rd` (R151). -/
theorem exec_auipc (rd : Reg) (imm20 : BitVec 20) (s : State) :
    exec (.auipc rd imm20) s =
      .next (s.setReg rd (BitVec.ofInt 64 (s.pc.toNat - 4 + Int.bmod (4096 * imm20.toNat : Nat) (2 ^ 32)))) := by
  rw [← toInt_append_zeros, ← instrAddr_add_signExtend_eq]
  rfl

/-- LUI ends by writing the immediate to `rd` (R152). -/
theorem exec_lui (rd : Reg) (imm20 : BitVec 20) (s : State) :
    exec (.lui rd imm20) s = .next (s.setReg rd (BitVec.ofInt 64 (Int.bmod (4096 * imm20.toNat : Nat) (2 ^ 32)))) := by
  rw [← toInt_append_zeros, ← signExtend_eq]
  rfl

/-- Settles O21: each word decodes to its instruction, which only writes its result to `rd`. -/
theorem upperImmediates : Obligations.UpperImmediates := by
  intro rd imm20 s
  refine ⟨⟨decode_packU_auipc rd imm20, ?_⟩, ⟨decode_packU_lui rd imm20, ?_⟩⟩
  · exact ⟨_, exec_auipc rd imm20 s, setReg_onlyWrites s rd _⟩
  · exact ⟨_, exec_lui rd imm20 s, setReg_onlyWrites s rd _⟩

end Sys2Proof.Machine

/-! The decoder and the encoder are inverse, and the decoder accepts exactly the rows of the opcode table (spec/30_encoding.md R70, R85 to
R92). Each format's packing holds its operands in the fields the decoder reads, and a word is the packing of its own fields. -/

namespace Sys2Proof

/-- Decoding the word of a well-formed instruction gives the instruction back. -/
theorem decode_encode {i : Instr} (h : i.wellFormed = true) : decode (encode i) = .ok i := by
  cases i with
  | lb | lh | lw | ld | lbu | lhu | lwu =>
    simp only [encode, decode, opcode_packI, decodeLoad, funct3_packI, fieldRd_packI, fieldRs1_packI, fieldImmI_packI]
  | addi | slti | sltiu | xori | ori | andi =>
    simp only [encode, decode, opcode_packI, decodeOpImm, funct3_packI, fieldRd_packI, fieldRs1_packI, fieldImmI_packI]
  | slli | srli | srai =>
    simp only [encode, decode, opcode_packShift64, decodeOpImm, funct3_packShift64, funct6_packShift64,
      fieldRd_packShift64, fieldRs1_packShift64, fieldShamt6_packShift64]
  | auipc | lui =>
    simp only [encode, decode, opcode_packU, fieldRd_packU, fieldImmU_packU]
  | addiw =>
    simp only [encode, decode, opcode_packI, decodeOpImm32, funct3_packI, fieldRd_packI, fieldRs1_packI, fieldImmI_packI]
  | slliw | srliw | sraiw =>
    simp only [encode, decode, opcode_packShift32, decodeOpImm32, funct3_packShift32, funct7_packShift32,
      fieldRd_packShift32, fieldRs1_packShift32, fieldShamt5_packShift32]
  | sb | sh | sw | sd =>
    simp only [encode, decode, opcode_packS, decodeStore, funct3_packS, fieldRs1_packS, fieldRs2_packS, fieldImmS_packS]
  | add | mul | sub | sll | slt | sltu | xor | srl | sra | or | and =>
    simp only [encode, decode, opcode_packR, decodeOp, funct3_packR, funct7_packR, fieldRd_packR, fieldRs1_packR, fieldRs2_packR]
  | addw | subw | sllw | srlw | sraw =>
    simp only [encode, decode, opcode_packR, decodeOp32, funct3_packR, funct7_packR, fieldRd_packR, fieldRs1_packR, fieldRs2_packR]
  | beq | bne | blt | bge | bltu | bgeu =>
    simp only [encode, decode, opcode_packB, decodeBranch, funct3_packB, fieldRs1_packB, fieldRs2_packB, fieldImmB_packB _ _ _ _ _ h]
  | jalr =>
    simp only [encode, decode, opcode_packI, decodeJalr, funct3_packI, fieldRd_packI, fieldRs1_packI, fieldImmI_packI]
  | jal =>
    simp only [encode, decode, opcode_packJ, fieldRd_packJ, fieldImmJ_packJ _ _ _ h]

/-- The same from the word. -/
theorem decode_of_encode_eq {w : InstrWord} {i : Instr} (he : encode i = w) (h : i.wellFormed = true) : decode w = .ok i :=
  he ▸ decode_encode h

/-- Settles O2, family by family: each format's packing holds its operands in the fields the decoder reads. -/
theorem decodeOfEncodeIsIdentity : Obligations.DecodeOfEncodeIsIdentity := fun _ h => decode_encode h

/-- Settles O1: each word is the encoding of its instruction. -/
theorem specWordsDecodeToTheirInstructions : Obligations.SpecWordsDecodeToTheirInstructions := by
  refine ⟨?_, ?_, ?_, ?_, ?_, ?_, ?_, ?_, ?_, ?_, ?_, ?_⟩
  all_goals exact decode_of_encode_eq (by decide) (by decide)

/-! ## A word with known selector fields is the packing of its operand fields -/

section
variable {w : InstrWord} {op : BitVec 7} {f3 : BitVec 3}

theorem packR_of_fields {f7 : BitVec 7} (hop : opcode w = op) (h3 : funct3 w = f3) (h7 : funct7 w = f7) :
    packR f7 (fieldRs2 w) (fieldRs1 w) f3 (fieldRd w) op = w := by
  subst hop h3 h7; exact packR_fields w

theorem packI_of_fields (hop : opcode w = op) (h3 : funct3 w = f3) :
    packI (fieldImmI w) (fieldRs1 w) f3 (fieldRd w) op = w := by
  subst hop h3; exact packI_fields w

theorem packShift64_of_fields {f6 : BitVec 6} (hop : opcode w = op) (h3 : funct3 w = f3) (h6 : funct6 w = f6) :
    packShift64 f6 (fieldShamt6 w) (fieldRs1 w) f3 (fieldRd w) op = w := by
  subst hop h3 h6; exact packShift64_fields w

theorem packShift32_of_fields {f7 : BitVec 7} (hop : opcode w = op) (h3 : funct3 w = f3) (h7 : funct7 w = f7) :
    packShift32 f7 (fieldShamt5 w) (fieldRs1 w) f3 (fieldRd w) op = w := by
  subst hop h3 h7; exact packShift32_fields w

theorem packS_of_fields (hop : opcode w = op) (h3 : funct3 w = f3) :
    packS (fieldImmS w) (fieldRs2 w) (fieldRs1 w) f3 op = w := by
  subst hop h3; exact packS_fields w

theorem packB_of_fields (hop : opcode w = op) (h3 : funct3 w = f3) :
    packB (fieldImmB w) (fieldRs2 w) (fieldRs1 w) f3 op = w := by
  subst hop h3; exact packB_fields w

theorem packU_of_fields (hop : opcode w = op) : packU (fieldImmU w) (fieldRd w) op = w := by
  subst hop; exact packU_fields w

theorem packJ_of_fields (hop : opcode w = op) : packJ (fieldImmJ w) (fieldRd w) op = w := by
  subst hop; exact packJ_fields w

end

/-! ## What each part of the decoder answers is encoded by the word it read -/

section
variable {w : InstrWord} {i : Instr}

theorem encode_of_decodeLoad (hop : opcode w = 0x03#7) (h : decodeLoad w = .ok i) : encode i = w ∧ i.wellFormed = true := by
  unfold decodeLoad at h
  split at h <;> cases h
  all_goals exact ⟨packI_of_fields hop ‹_›, rfl⟩

theorem encode_of_decodeOpImm (hop : opcode w = 0x13#7) (h : decodeOpImm w = .ok i) : encode i = w ∧ i.wellFormed = true := by
  unfold decodeOpImm at h
  split at h
  case h_2 | h_6 =>
    split at h <;> cases h
    all_goals exact ⟨packShift64_of_fields hop ‹_› ‹_›, rfl⟩
  all_goals
    cases h
    exact ⟨packI_of_fields hop ‹_›, rfl⟩

theorem encode_of_decodeOpImm32 (hop : opcode w = 0x1b#7) (h : decodeOpImm32 w = .ok i) : encode i = w ∧ i.wellFormed = true := by
  unfold decodeOpImm32 at h
  split at h
  case h_1 =>
    cases h
    exact ⟨packI_of_fields hop ‹_›, rfl⟩
  case h_2 | h_3 =>
    split at h <;> cases h
    all_goals exact ⟨packShift32_of_fields hop ‹_› ‹_›, rfl⟩
  case h_4 => cases h

theorem encode_of_decodeStore (hop : opcode w = 0x23#7) (h : decodeStore w = .ok i) : encode i = w ∧ i.wellFormed = true := by
  unfold decodeStore at h
  split at h <;> cases h
  all_goals exact ⟨packS_of_fields hop ‹_›, rfl⟩

theorem encode_of_decodeOp (hop : opcode w = 0x33#7) (h : decodeOp w = .ok i) : encode i = w ∧ i.wellFormed = true := by
  unfold decodeOp at h
  split at h <;> split at h <;> cases h
  all_goals exact ⟨packR_of_fields hop ‹_› ‹_›, rfl⟩

theorem encode_of_decodeOp32 (hop : opcode w = 0x3b#7) (h : decodeOp32 w = .ok i) : encode i = w ∧ i.wellFormed = true := by
  unfold decodeOp32 at h
  split at h
  case h_4 => cases h
  all_goals
    split at h <;> cases h
    all_goals exact ⟨packR_of_fields hop ‹_› ‹_›, rfl⟩

theorem encode_of_decodeBranch (hop : opcode w = 0x63#7) (h : decodeBranch w = .ok i) : encode i = w ∧ i.wellFormed = true := by
  unfold decodeBranch at h
  split at h <;> cases h
  all_goals exact ⟨packB_of_fields hop ‹_›, fieldImmB_even w⟩

theorem encode_of_decodeJalr (hop : opcode w = 0x67#7) (h : decodeJalr w = .ok i) : encode i = w ∧ i.wellFormed = true := by
  unfold decodeJalr at h
  split at h <;> cases h
  exact ⟨packI_of_fields hop ‹_›, rfl⟩

theorem encode_of_decode (h : decode w = .ok i) : encode i = w ∧ i.wellFormed = true := by
  unfold decode at h
  split at h
  case h_1 hop => exact encode_of_decodeLoad hop h
  case h_2 hop => exact encode_of_decodeOpImm hop h
  case h_3 hop => cases h; exact ⟨packU_of_fields hop, rfl⟩
  case h_4 hop => exact encode_of_decodeOpImm32 hop h
  case h_5 hop => exact encode_of_decodeStore hop h
  case h_6 hop => exact encode_of_decodeOp hop h
  case h_7 hop => cases h; exact ⟨packU_of_fields hop, rfl⟩
  case h_8 hop => exact encode_of_decodeOp32 hop h
  case h_9 hop => exact encode_of_decodeBranch hop h
  case h_10 hop => exact encode_of_decodeJalr hop h
  case h_11 hop => cases h; exact ⟨packJ_of_fields hop, fieldImmJ_even w⟩
  case h_12 => cases h

end

/-- Settles O3: a word that decodes has its instruction's selector values, and it is the packing of its own fields. -/
theorem encodeOfDecodeIsIdentity : Obligations.EncodeOfDecodeIsIdentity := fun _ _ h => encode_of_decode h

/-! ## The opcode table -/

/-- Every instruction's word matches a row of its own mnemonic. -/
theorem encode_matches_row : ∀ i : Instr, Laws.EncodesRow.Statement i
  | .lb _ _ _ => Laws.EncodesRow.lb _ _ _
  | .lh _ _ _ => Laws.EncodesRow.lh _ _ _
  | .lw _ _ _ => Laws.EncodesRow.lw _ _ _
  | .ld _ _ _ => Laws.EncodesRow.ld _ _ _
  | .lbu _ _ _ => Laws.EncodesRow.lbu _ _ _
  | .lhu _ _ _ => Laws.EncodesRow.lhu _ _ _
  | .lwu _ _ _ => Laws.EncodesRow.lwu _ _ _
  | .addi _ _ _ => Laws.EncodesRow.addi _ _ _
  | .slli _ _ _ => Laws.EncodesRow.slli _ _ _
  | .slti _ _ _ => Laws.EncodesRow.slti _ _ _
  | .sltiu _ _ _ => Laws.EncodesRow.sltiu _ _ _
  | .xori _ _ _ => Laws.EncodesRow.xori _ _ _
  | .srli _ _ _ => Laws.EncodesRow.srli _ _ _
  | .srai _ _ _ => Laws.EncodesRow.srai _ _ _
  | .ori _ _ _ => Laws.EncodesRow.ori _ _ _
  | .andi _ _ _ => Laws.EncodesRow.andi _ _ _
  | .auipc _ _ => Laws.EncodesRow.auipc _ _
  | .addiw _ _ _ => Laws.EncodesRow.addiw _ _ _
  | .slliw _ _ _ => Laws.EncodesRow.slliw _ _ _
  | .srliw _ _ _ => Laws.EncodesRow.srliw _ _ _
  | .sraiw _ _ _ => Laws.EncodesRow.sraiw _ _ _
  | .sb _ _ _ => Laws.EncodesRow.sb _ _ _
  | .sh _ _ _ => Laws.EncodesRow.sh _ _ _
  | .sw _ _ _ => Laws.EncodesRow.sw _ _ _
  | .sd _ _ _ => Laws.EncodesRow.sd _ _ _
  | .add _ _ _ => Laws.EncodesRow.add _ _ _
  | .mul _ _ _ => Laws.EncodesRow.mul _ _ _
  | .sub _ _ _ => Laws.EncodesRow.sub _ _ _
  | .sll _ _ _ => Laws.EncodesRow.sll _ _ _
  | .slt _ _ _ => Laws.EncodesRow.slt _ _ _
  | .sltu _ _ _ => Laws.EncodesRow.sltu _ _ _
  | .xor _ _ _ => Laws.EncodesRow.xor _ _ _
  | .srl _ _ _ => Laws.EncodesRow.srl _ _ _
  | .sra _ _ _ => Laws.EncodesRow.sra _ _ _
  | .or _ _ _ => Laws.EncodesRow.or _ _ _
  | .and _ _ _ => Laws.EncodesRow.and _ _ _
  | .lui _ _ => Laws.EncodesRow.lui _ _
  | .addw _ _ _ => Laws.EncodesRow.addw _ _ _
  | .subw _ _ _ => Laws.EncodesRow.subw _ _ _
  | .sllw _ _ _ => Laws.EncodesRow.sllw _ _ _
  | .srlw _ _ _ => Laws.EncodesRow.srlw _ _ _
  | .sraw _ _ _ => Laws.EncodesRow.sraw _ _ _
  | .beq _ _ _ => Laws.EncodesRow.beq _ _ _
  | .bne _ _ _ => Laws.EncodesRow.bne _ _ _
  | .blt _ _ _ => Laws.EncodesRow.blt _ _ _
  | .bge _ _ _ => Laws.EncodesRow.bge _ _ _
  | .bltu _ _ _ => Laws.EncodesRow.bltu _ _ _
  | .bgeu _ _ _ => Laws.EncodesRow.bgeu _ _ _
  | .jalr _ _ _ => Laws.EncodesRow.jalr _ _ _
  | .jal _ _ => Laws.EncodesRow.jal _ _

/-- The words of the row decode to instructions of the row's mnemonic. -/
def OpcodeRow.DecodesAsNamed (r : OpcodeRow) : Prop :=
  ∀ w : InstrWord, r.Matches w → ∃ i, decode w = .ok i ∧ i.mnemonic = r.mnemonic

/-! One lemma per format: a row stands for `f` when `f` packs its operands under the selector values of the row's pattern. -/

section
variable {name : String} {p : InstrWord}

theorem decodesAsNamed_packR {f : Reg → Reg → Reg → Instr} (hf : ∀ rd rs1 rs2, (f rd rs1 rs2).mnemonic = name ∧
    (f rd rs1 rs2).wellFormed = true ∧ encode (f rd rs1 rs2) = packR (funct7 p) rs2 rs1 (funct3 p) rd (opcode p)) :
    OpcodeRow.DecodesAsNamed ⟨name, 0xfe00707f#32, p⟩ := fun w hw => by
  obtain ⟨hop, h3, h7⟩ := fields_of_mask17 hw
  obtain ⟨hm, hwf, he⟩ := hf (fieldRd w) (fieldRs1 w) (fieldRs2 w)
  exact ⟨_, decode_of_encode_eq (he.trans (packR_of_fields hop h3 h7)) hwf, hm⟩

theorem decodesAsNamed_packI {f : Reg → Reg → BitVec 12 → Instr} (hf : ∀ rd rs1 imm, (f rd rs1 imm).mnemonic = name ∧
    (f rd rs1 imm).wellFormed = true ∧ encode (f rd rs1 imm) = packI imm rs1 (funct3 p) rd (opcode p)) :
    OpcodeRow.DecodesAsNamed ⟨name, 0x0000707f#32, p⟩ := fun w hw => by
  obtain ⟨hop, h3⟩ := fields_of_mask10 hw
  obtain ⟨hm, hwf, he⟩ := hf (fieldRd w) (fieldRs1 w) (fieldImmI w)
  exact ⟨_, decode_of_encode_eq (he.trans (packI_of_fields hop h3)) hwf, hm⟩

theorem decodesAsNamed_packShift64 {f : Reg → Reg → BitVec 6 → Instr} (hf : ∀ rd rs1 shamt, (f rd rs1 shamt).mnemonic = name ∧
    (f rd rs1 shamt).wellFormed = true ∧ encode (f rd rs1 shamt) = packShift64 (funct6 p) shamt rs1 (funct3 p) rd (opcode p)) :
    OpcodeRow.DecodesAsNamed ⟨name, 0xfc00707f#32, p⟩ := fun w hw => by
  obtain ⟨hop, h3, h6⟩ := fields_of_mask16 hw
  obtain ⟨hm, hwf, he⟩ := hf (fieldRd w) (fieldRs1 w) (fieldShamt6 w)
  exact ⟨_, decode_of_encode_eq (he.trans (packShift64_of_fields hop h3 h6)) hwf, hm⟩

theorem decodesAsNamed_packShift32 {f : Reg → Reg → BitVec 5 → Instr} (hf : ∀ rd rs1 shamt, (f rd rs1 shamt).mnemonic = name ∧
    (f rd rs1 shamt).wellFormed = true ∧ encode (f rd rs1 shamt) = packShift32 (funct7 p) shamt rs1 (funct3 p) rd (opcode p)) :
    OpcodeRow.DecodesAsNamed ⟨name, 0xfe00707f#32, p⟩ := fun w hw => by
  obtain ⟨hop, h3, h7⟩ := fields_of_mask17 hw
  obtain ⟨hm, hwf, he⟩ := hf (fieldRd w) (fieldRs1 w) (fieldShamt5 w)
  exact ⟨_, decode_of_encode_eq (he.trans (packShift32_of_fields hop h3 h7)) hwf, hm⟩

theorem decodesAsNamed_packS {f : Reg → Reg → BitVec 12 → Instr} (hf : ∀ rs2 rs1 imm, (f rs2 rs1 imm).mnemonic = name ∧
    (f rs2 rs1 imm).wellFormed = true ∧ encode (f rs2 rs1 imm) = packS imm rs2 rs1 (funct3 p) (opcode p)) :
    OpcodeRow.DecodesAsNamed ⟨name, 0x0000707f#32, p⟩ := fun w hw => by
  obtain ⟨hop, h3⟩ := fields_of_mask10 hw
  obtain ⟨hm, hwf, he⟩ := hf (fieldRs2 w) (fieldRs1 w) (fieldImmS w)
  exact ⟨_, decode_of_encode_eq (he.trans (packS_of_fields hop h3)) hwf, hm⟩

theorem decodesAsNamed_packB {f : Reg → Reg → BitVec 13 → Instr} (hf : ∀ rs1 rs2 off, (f rs1 rs2 off).mnemonic = name ∧
    (f rs1 rs2 off).wellFormed = branchOffsetEven off ∧ encode (f rs1 rs2 off) = packB off rs2 rs1 (funct3 p) (opcode p)) :
    OpcodeRow.DecodesAsNamed ⟨name, 0x0000707f#32, p⟩ := fun w hw => by
  obtain ⟨hop, h3⟩ := fields_of_mask10 hw
  obtain ⟨hm, hwf, he⟩ := hf (fieldRs1 w) (fieldRs2 w) (fieldImmB w)
  exact ⟨_, decode_of_encode_eq (he.trans (packB_of_fields hop h3)) (hwf.trans (fieldImmB_even w)), hm⟩

theorem decodesAsNamed_packU {f : Reg → BitVec 20 → Instr} (hf : ∀ rd imm20, (f rd imm20).mnemonic = name ∧
    (f rd imm20).wellFormed = true ∧ encode (f rd imm20) = packU imm20 rd (opcode p)) :
    OpcodeRow.DecodesAsNamed ⟨name, 0x0000007f#32, p⟩ := fun w hw => by
  obtain ⟨hm, hwf, he⟩ := hf (fieldRd w) (fieldImmU w)
  exact ⟨_, decode_of_encode_eq (he.trans (packU_of_fields (fields_of_mask7 hw))) hwf, hm⟩

theorem decodesAsNamed_packJ {f : Reg → BitVec 21 → Instr} (hf : ∀ rd off, (f rd off).mnemonic = name ∧
    (f rd off).wellFormed = jumpOffsetEven off ∧ encode (f rd off) = packJ off rd (opcode p)) :
    OpcodeRow.DecodesAsNamed ⟨name, 0x0000007f#32, p⟩ := fun w hw => by
  obtain ⟨hm, hwf, he⟩ := hf (fieldRd w) (fieldImmJ w)
  exact ⟨_, decode_of_encode_eq (he.trans (packJ_of_fields (fields_of_mask7 hw))) (hwf.trans (fieldImmJ_even w)), hm⟩

end

/-! Each row of the table stands for the instruction of its mnemonic. -/

theorem rowsLoad_decodesAsNamed : ∀ r ∈ rowsLoad, r.DecodesAsNamed := by
  simp only [rowsLoad, List.forall_mem_cons]
  refine ⟨?_, ?_, ?_, ?_, ?_, ?_, ?_, List.forall_mem_nil _⟩
  · exact decodesAsNamed_packI (f := .lb) fun _ _ _ => ⟨rfl, rfl, rfl⟩
  · exact decodesAsNamed_packI (f := .lh) fun _ _ _ => ⟨rfl, rfl, rfl⟩
  · exact decodesAsNamed_packI (f := .lw) fun _ _ _ => ⟨rfl, rfl, rfl⟩
  · exact decodesAsNamed_packI (f := .ld) fun _ _ _ => ⟨rfl, rfl, rfl⟩
  · exact decodesAsNamed_packI (f := .lbu) fun _ _ _ => ⟨rfl, rfl, rfl⟩
  · exact decodesAsNamed_packI (f := .lhu) fun _ _ _ => ⟨rfl, rfl, rfl⟩
  · exact decodesAsNamed_packI (f := .lwu) fun _ _ _ => ⟨rfl, rfl, rfl⟩

theorem rowsOpImm_decodesAsNamed : ∀ r ∈ rowsOpImm, r.DecodesAsNamed := by
  simp only [rowsOpImm, List.forall_mem_cons]
  refine ⟨?_, ?_, ?_, ?_, ?_, ?_, ?_, ?_, ?_, List.forall_mem_nil _⟩
  · exact decodesAsNamed_packI (f := .addi) fun _ _ _ => ⟨rfl, rfl, rfl⟩
  · exact decodesAsNamed_packShift64 (f := .slli) fun _ _ _ => ⟨rfl, rfl, rfl⟩
  · exact decodesAsNamed_packI (f := .slti) fun _ _ _ => ⟨rfl, rfl, rfl⟩
  · exact decodesAsNamed_packI (f := .sltiu) fun _ _ _ => ⟨rfl, rfl, rfl⟩
  · exact decodesAsNamed_packI (f := .xori) fun _ _ _ => ⟨rfl, rfl, rfl⟩
  · exact decodesAsNamed_packShift64 (f := .srli) fun _ _ _ => ⟨rfl, rfl, rfl⟩
  · exact decodesAsNamed_packShift64 (f := .srai) fun _ _ _ => ⟨rfl, rfl, rfl⟩
  · exact decodesAsNamed_packI (f := .ori) fun _ _ _ => ⟨rfl, rfl, rfl⟩
  · exact decodesAsNamed_packI (f := .andi) fun _ _ _ => ⟨rfl, rfl, rfl⟩

theorem rowsUpper_decodesAsNamed : ∀ r ∈ rowsUpper, r.DecodesAsNamed := by
  simp only [rowsUpper, List.forall_mem_cons]
  refine ⟨?_, ?_, List.forall_mem_nil _⟩
  · exact decodesAsNamed_packU (f := .auipc) fun _ _ => ⟨rfl, rfl, rfl⟩
  · exact decodesAsNamed_packU (f := .lui) fun _ _ => ⟨rfl, rfl, rfl⟩

theorem rowsOpImm32_decodesAsNamed : ∀ r ∈ rowsOpImm32, r.DecodesAsNamed := by
  simp only [rowsOpImm32, List.forall_mem_cons]
  refine ⟨?_, ?_, ?_, ?_, List.forall_mem_nil _⟩
  · exact decodesAsNamed_packI (f := .addiw) fun _ _ _ => ⟨rfl, rfl, rfl⟩
  · exact decodesAsNamed_packShift32 (f := .slliw) fun _ _ _ => ⟨rfl, rfl, rfl⟩
  · exact decodesAsNamed_packShift32 (f := .srliw) fun _ _ _ => ⟨rfl, rfl, rfl⟩
  · exact decodesAsNamed_packShift32 (f := .sraiw) fun _ _ _ => ⟨rfl, rfl, rfl⟩

theorem rowsStore_decodesAsNamed : ∀ r ∈ rowsStore, r.DecodesAsNamed := by
  simp only [rowsStore, List.forall_mem_cons]
  refine ⟨?_, ?_, ?_, ?_, List.forall_mem_nil _⟩
  · exact decodesAsNamed_packS (f := .sb) fun _ _ _ => ⟨rfl, rfl, rfl⟩
  · exact decodesAsNamed_packS (f := .sh) fun _ _ _ => ⟨rfl, rfl, rfl⟩
  · exact decodesAsNamed_packS (f := .sw) fun _ _ _ => ⟨rfl, rfl, rfl⟩
  · exact decodesAsNamed_packS (f := .sd) fun _ _ _ => ⟨rfl, rfl, rfl⟩

theorem rowsOp_decodesAsNamed : ∀ r ∈ rowsOp, r.DecodesAsNamed := by
  simp only [rowsOp, List.forall_mem_cons]
  refine ⟨?_, ?_, ?_, ?_, ?_, ?_, ?_, ?_, ?_, ?_, ?_, List.forall_mem_nil _⟩
  · exact decodesAsNamed_packR (f := .add) fun _ _ _ => ⟨rfl, rfl, rfl⟩
  · exact decodesAsNamed_packR (f := .mul) fun _ _ _ => ⟨rfl, rfl, rfl⟩
  · exact decodesAsNamed_packR (f := .sub) fun _ _ _ => ⟨rfl, rfl, rfl⟩
  · exact decodesAsNamed_packR (f := .sll) fun _ _ _ => ⟨rfl, rfl, rfl⟩
  · exact decodesAsNamed_packR (f := .slt) fun _ _ _ => ⟨rfl, rfl, rfl⟩
  · exact decodesAsNamed_packR (f := .sltu) fun _ _ _ => ⟨rfl, rfl, rfl⟩
  · exact decodesAsNamed_packR (f := .xor) fun _ _ _ => ⟨rfl, rfl, rfl⟩
  · exact decodesAsNamed_packR (f := .srl) fun _ _ _ => ⟨rfl, rfl, rfl⟩
  · exact decodesAsNamed_packR (f := .sra) fun _ _ _ => ⟨rfl, rfl, rfl⟩
  · exact decodesAsNamed_packR (f := .or) fun _ _ _ => ⟨rfl, rfl, rfl⟩
  · exact decodesAsNamed_packR (f := .and) fun _ _ _ => ⟨rfl, rfl, rfl⟩

theorem rowsOp32_decodesAsNamed : ∀ r ∈ rowsOp32, r.DecodesAsNamed := by
  simp only [rowsOp32, List.forall_mem_cons]
  refine ⟨?_, ?_, ?_, ?_, ?_, List.forall_mem_nil _⟩
  · exact decodesAsNamed_packR (f := .addw) fun _ _ _ => ⟨rfl, rfl, rfl⟩
  · exact decodesAsNamed_packR (f := .subw) fun _ _ _ => ⟨rfl, rfl, rfl⟩
  · exact decodesAsNamed_packR (f := .sllw) fun _ _ _ => ⟨rfl, rfl, rfl⟩
  · exact decodesAsNamed_packR (f := .srlw) fun _ _ _ => ⟨rfl, rfl, rfl⟩
  · exact decodesAsNamed_packR (f := .sraw) fun _ _ _ => ⟨rfl, rfl, rfl⟩

theorem rowsControl_decodesAsNamed : ∀ r ∈ rowsControl, r.DecodesAsNamed := by
  simp only [rowsControl, List.forall_mem_cons]
  refine ⟨?_, ?_, ?_, ?_, ?_, ?_, ?_, ?_, List.forall_mem_nil _⟩
  · exact decodesAsNamed_packB (f := .beq) fun _ _ _ => ⟨rfl, rfl, rfl⟩
  · exact decodesAsNamed_packB (f := .bne) fun _ _ _ => ⟨rfl, rfl, rfl⟩
  · exact decodesAsNamed_packB (f := .blt) fun _ _ _ => ⟨rfl, rfl, rfl⟩
  · exact decodesAsNamed_packB (f := .bge) fun _ _ _ => ⟨rfl, rfl, rfl⟩
  · exact decodesAsNamed_packB (f := .bltu) fun _ _ _ => ⟨rfl, rfl, rfl⟩
  · exact decodesAsNamed_packB (f := .bgeu) fun _ _ _ => ⟨rfl, rfl, rfl⟩
  · exact decodesAsNamed_packI (f := .jalr) fun _ _ _ => ⟨rfl, rfl, rfl⟩
  · exact decodesAsNamed_packJ (f := .jal) fun _ _ => ⟨rfl, rfl, rfl⟩

theorem opcodeTable_decodesAsNamed : ∀ r ∈ opcodeTable, r.DecodesAsNamed := by
  simp only [opcodeTable, List.forall_mem_append]
  exact ⟨⟨⟨⟨⟨⟨⟨rowsLoad_decodesAsNamed, rowsOpImm_decodesAsNamed⟩, rowsUpper_decodesAsNamed⟩, rowsOpImm32_decodesAsNamed⟩,
    rowsStore_decodesAsNamed⟩, rowsOp_decodesAsNamed⟩, rowsOp32_decodesAsNamed⟩, rowsControl_decodesAsNamed⟩

/-- Settles O5: a word that decodes is its instruction's encoding, which matches that row; a word that matches a row is the
encoding of the row's instruction. -/
theorem decoderAcceptsExactlyTheOpcodeTable : Obligations.DecoderAcceptsExactlyTheOpcodeTable := by
  refine ⟨fun w i h => ?_, fun w r hr hw => opcodeTable_decodesAsNamed r hr w hw⟩
  obtain ⟨rfl, -⟩ := encode_of_decode h
  exact encode_matches_row i

/-- Two different rows of the table disagree on a bit that both fix. -/
theorem opcodeTable_patterns_conflict : ∀ r ∈ opcodeTable, ∀ r' ∈ opcodeTable,
    r.pattern &&& r'.mask = r'.pattern &&& r.mask → r = r' := by
  decide

/-- Settles O4: a word that matches two rows shows both patterns' bits where both masks look, so they are one row. -/
theorem opcodeTableRowsAreDisjoint : Obligations.OpcodeTableRowsAreDisjoint := by
  intro w r hr r' hr' h h'
  refine opcodeTable_patterns_conflict r hr r' hr' ?_
  rw [← h, ← h', BitVec.and_assoc, BitVec.and_assoc, BitVec.and_comm r.mask]

end Sys2Proof

/-! What RAM bytes read as after a store or a load of an image (spec/20_memory.md R42, R43, R46), and the contracts of the bus. -/

namespace Sys2Proof.Machine

/-! ## Bytes read back -/

/-- A run of bytes inside a run that was written reads as those bits of the written value. -/
theorem Memory.readBytes_writeBytes (m : Memory) (a : Nat) {n j k : Nat} (v : Word) (h : j + k ≤ n) :
    (m.writeBytes a n v).readBytes (a + j) k = (v.extractLsb' (8 * j) (8 * k)).setWidth 64 := by
  refine BitVec.eq_of_getLsbD_eq fun i hi => ?_
  rw [Memory.getLsbD_readBytes _ _ _ _ hi]
  by_cases hik : i < 8 * k
  · have hin : a ≤ a + j + i / 8 ∧ a + j + i / 8 < a + n := by omega
    have hbit : 8 * (a + j + i / 8 - a) + i % 8 = 8 * j + i := by omega
    have hmod : i % 8 < 8 := Nat.mod_lt _ (by decide)
    rw [Memory.read_writeBytes, if_pos hin]
    simp [hik, hi, hmod, hbit]
  · simp [hik]

/-- The same as integers. -/
theorem Memory.toNat_readBytes_writeBytes (m : Memory) (a : Nat) {n j k : Nat} (v : Word) (h : j + k ≤ n) (hk : k ≤ 8) :
    ((m.writeBytes a n v).readBytes (a + j) k).toNat = v.toNat / 2 ^ (8 * j) % 2 ^ (8 * k) := by
  have hlt : v.toNat / 2 ^ (8 * j) % 2 ^ (8 * k) < 2 ^ 64 :=
    Nat.lt_of_lt_of_le (Nat.mod_lt _ (Nat.two_pow_pos _)) (Nat.pow_le_pow_right (by decide) (by omega))
  rw [Memory.readBytes_writeBytes m a v h, BitVec.toNat_setWidth, BitVec.extractLsb'_toNat, Nat.shiftRight_eq_div_pow,
    Nat.mod_eq_of_lt hlt]

/-! ## The widths -/

theorem widthBytes_of_size {width : BitVec 8} {n : Nat} (hn : n ∈ [1, 2, 4, 8]) (h : width.toNat = 8 * n) :
    widthBytes width = some n := by
  have hw : width = BitVec.ofNat 8 (8 * n) := by rw [← h, BitVec.ofNat_toNat, BitVec.setWidth_eq]
  subst hw
  revert n
  decide

theorem widthBytes_unsupported {width : BitVec 8} (h : width.toNat ∉ [8, 16, 32, 64]) : widthBytes width = none := by
  revert width
  decide

theorem le_eight_of_size {n : Nat} (hn : n ∈ [1, 2, 4, 8]) : n ≤ 8 := by
  revert n
  decide

/-! ## The contracts of the bus -/

/-- Settles O7: one clause for each answer of `busLoad`; the bytes read are their integer value. -/
theorem busLoadContract : Obligations.BusLoadContract := by
  intro s a width
  refine ⟨fun h => by simp only [busLoad, widthBytes_unsupported h], fun n hn hw => ⟨fun hb => ?_, fun hb => ?_⟩⟩
  · exact ⟨_, busLoad_ok (widthBytes_of_size hn hw) hb, (toNat_readBytes s _ n (le_eight_of_size hn)).1⟩
  · exact busLoad_outOfBounds (widthBytes_of_size hn hw) hb

/-- Settles O8: one clause for each answer of `busStore`; the frame is that of the bytes written. -/
theorem busStoreContract : Obligations.BusStoreContract := by
  intro s a v width
  refine ⟨fun h => by simp only [busStore, widthBytes_unsupported h], fun n hn hw => ⟨fun hb => ?_, fun hb => ?_⟩⟩
  · exact ⟨_, busStore_ok (widthBytes_of_size hn hw) hb, writeBytes_onlyStores s _ n v⟩
  · exact busStore_outOfBounds (widthBytes_of_size hn hw) hb

/-! ## The ends of RAM -/

section
variable {c : Config} {n : Nat}

theorem toNat_ramEnd (hc : c.Valid) : (ramEnd c).toNat = c.memBase.toNat + c.memSize := by
  obtain ⟨-, hlt⟩ := hc
  rw [ramEnd, BitVec.toNat_add, BitVec.toNat_ofNat, Nat.add_mod_mod, Nat.mod_eq_of_lt hlt]

/-- The last place where `n` bytes fit. -/
theorem toNat_ramEnd_sub (hc : c.Valid) (hn : n ≤ c.memSize) :
    (ramEnd c - BitVec.ofNat 64 n).toNat = c.memBase.toNat + c.memSize - n := by
  have he := toNat_ramEnd hc
  obtain ⟨-, hlt⟩ := hc
  have hn' : (BitVec.ofNat 64 n).toNat = n := by rw [BitVec.toNat_ofNat, Nat.mod_eq_of_lt (by omega)]
  rw [BitVec.toNat_sub_of_le (BitVec.le_def.mpr (by omega)), he, hn']

theorem not_inBounds_below_base (hc : c.Valid) (hn : 1 ≤ n) : ¬ InBounds c (c.memBase - 1#64) n := by
  obtain ⟨-, hlt⟩ := hc
  rintro ⟨hlo, hhi⟩
  rw [BitVec.toNat_sub] at hlo hhi
  simp only [BitVec.toNat_ofNat] at hlo hhi
  omega

theorem not_inBounds_ramEnd (hc : c.Valid) (hn : 1 ≤ n) : ¬ InBounds c (ramEnd c) n := by
  rintro ⟨-, hhi⟩
  rw [toNat_ramEnd hc] at hhi
  omega

theorem inBounds_base (hn : n ≤ c.memSize) : InBounds c c.memBase n := ⟨Nat.le_refl _, Nat.add_le_add_left hn _⟩

theorem inBounds_below_ramEnd (hc : c.Valid) (hn : n ≤ c.memSize) : InBounds c (ramEnd c - BitVec.ofNat 64 n) n := by
  have he := toNat_ramEnd_sub hc hn
  constructor <;> omega

theorem one_le_of_size (hn : n ∈ [1, 2, 4, 8]) : 1 ≤ n := by
  revert n
  decide

end

/-! ## Round trips -/

/-- Settles O9: the bytes stored read back, and each of the four boundary addresses is in bounds or is not. -/
theorem storeThenLoadReturnsTheMaskedValue : Obligations.StoreThenLoadReturnsTheMaskedValue := by
  intro s v width n hn hwidth
  have hw := widthBytes_of_size hn hwidth
  have h1 := one_le_of_size hn
  refine ⟨fun a hb => ?_, fun hc hsize => ?_⟩
  · refine ⟨_, _, busStore_ok hw hb, busLoad_ok hw hb, ?_⟩
    have hread := Memory.toNat_readBytes_writeBytes s.mem a.toNat (j := 0) v (Nat.zero_add n).le (le_eight_of_size hn)
    rw [show 256 ^ n = 2 ^ (8 * n) by rw [Nat.pow_mul]]
    simpa using hread
  · exact ⟨busLoad_outOfBounds hw (not_inBounds_below_base hc h1), busStore_outOfBounds hw (not_inBounds_below_base hc h1),
      busLoad_outOfBounds hw (not_inBounds_ramEnd hc h1), busStore_outOfBounds hw (not_inBounds_ramEnd hc h1),
      ⟨_, busLoad_ok hw (inBounds_base hsize)⟩, ⟨_, busStore_ok hw (inBounds_base hsize)⟩,
      ⟨_, busLoad_ok hw (inBounds_below_ramEnd hc hsize)⟩, ⟨_, busStore_ok hw (inBounds_below_ramEnd hc hsize)⟩⟩

/-- After a doubleword store, a load of `k` of its bytes from byte `j` on sees those bits of the value. -/
theorem busLoad_of_stored_doubleword {s : State} {a : Word} {width : BitVec 8} {j k : Nat} (v : Word) (hc : s.cfg.Valid)
    (hb : InBounds s.cfg a 8) (hw : widthBytes width = some k) (h : j + k ≤ 8) :
    ∃ u, busLoad (s.setMem (s.mem.writeBytes a.toNat 8 v)) (a + BitVec.ofNat 64 j) width = .ok u ∧
      u.toNat = v.toNat / 2 ^ (8 * j) % 2 ^ (8 * k) := by
  obtain ⟨-, hlt⟩ := hc
  obtain ⟨hlo, hhi⟩ := hb
  have ha : (a + BitVec.ofNat 64 j).toNat = a.toNat + j := by
    rw [BitVec.toNat_add, BitVec.toNat_ofNat, Nat.add_mod_mod, Nat.mod_eq_of_lt (by omega)]
  refine ⟨_, busLoad_ok hw ⟨?_, ?_⟩, ?_⟩
  · rw [ha]; exact Nat.le_add_right_of_le hlo
  · rw [ha]; exact Nat.le_trans (by omega) hhi
  · rw [ha]; exact Memory.toNat_readBytes_writeBytes s.mem a.toNat v h (by omega)

/-- Settles O10: each narrow load sees its bytes of the doubleword, at offsets 0, 4, 0 and 7. -/
theorem mixedWidthReadsAreLittleEndian : Obligations.MixedWidthReadsAreLittleEndian := by
  intro s a v hc hb
  have hv := v.isLt
  refine ⟨_, busStore_ok rfl hb, ?_, ?_, ?_, ?_⟩
  · simpa using busLoad_of_stored_doubleword (j := 0) v hc hb (width := 32#8) rfl (by decide)
  · obtain ⟨u, hu, h⟩ := busLoad_of_stored_doubleword (j := 4) v hc hb (width := 32#8) rfl (by decide)
    exact ⟨u, hu, by omega⟩
  · simpa using busLoad_of_stored_doubleword (j := 0) v hc hb (width := 8#8) rfl (by decide)
  · obtain ⟨u, hu, h⟩ := busLoad_of_stored_doubleword (j := 7) v hc hb (width := 8#8) rfl (by decide)
    exact ⟨u, hu, by omega⟩

/-- Settles O11: a fetch is a bus load of 32 bits at the pc. -/
theorem fetchReadsTheWordAtThePc : Obligations.FetchReadsTheWordAtThePc := by
  intro s
  obtain ⟨-, h⟩ := busLoadContract s s.pc 32#8
  exact h 4 (by decide) rfl

end Sys2Proof.Machine

/-! The instructions one by one, on integers (spec/41_load.md to spec/46_control_transfer.md). The word of each is its encoding, so that it
decodes by the round trip; what it ends in is one of the shared ends. -/

namespace Sys2Proof.Machine

/-! ## Loads and stores -/

/-- Settles O12: both extensions keep the signed value of the immediate. -/
theorem effectiveAddressesWrap : Obligations.EffectiveAddressesWrap := fun _ _ _ =>
  ⟨add_signExtend_eq _ _, add_signExtend_eq _ _⟩

/-- A load of `n` bytes into `rd`, in bounds and out of bounds. -/
theorem loadInto_contract {w : BitVec 8} {n : Nat} {s : State} {a v : Word} {ext : Word → Word} (hw : widthBytes w = some n)
    (rd : Reg) (hv : ext (s.mem.readBytes a.toNat n) = v) :
    (InBounds s.cfg a n → ∃ t, loadInto rd a w ext s = .next t ∧ s.OnlyWrites t rd v) ∧
    (¬ InBounds s.cfg a n → ∃ t, loadInto rd a w ext s = .next t ∧ s.OnlyFaults t (.outOfBounds a n)) := by
  subst hv
  rcases loadInto_cases hw rd a ext s with ⟨hb, h⟩ | ⟨hb, h⟩
  · exact ⟨fun _ => ⟨_, h, setReg_onlyWrites s rd _⟩, fun hn => absurd hb hn⟩
  · exact ⟨fun hn => absurd hn hb, fun _ => ⟨_, h, setStatus_onlyFaults s _⟩⟩

/-- A store of `n` bytes, in bounds and out of bounds. -/
theorem storeFrom_contract {w : BitVec 8} {n : Nat} (hw : widthBytes w = some n) (s : State) (a v : Word) :
    (InBounds s.cfg a n → ∃ t, storeFrom a w v s = .next t ∧ s.OnlyStores t a.toNat n v) ∧
    (¬ InBounds s.cfg a n → ∃ t, storeFrom a w v s = .next t ∧ s.OnlyFaults t (.outOfBounds a n)) := by
  rcases storeFrom_cases hw a v s with ⟨hb, h⟩ | ⟨hb, h⟩
  · exact ⟨fun _ => ⟨_, h, writeBytes_onlyStores s _ n v⟩, fun hn => absurd hb hn⟩
  · exact ⟨fun hn => absurd hn hb, fun _ => ⟨_, h, setStatus_onlyFaults s _⟩⟩

/-- `n` loaded bytes, sign-extended. -/
theorem sext_readBytes (s : State) (a : Nat) {n : Nat} (hn : n ≤ 8) :
    sext (8 * n) (s.mem.readBytes a n) = BitVec.ofInt 64 (Int.bmod (s.bytesValue a n) (2 ^ (8 * n))) := by
  rw [sext_eq, (toNat_readBytes s a n hn).1]

/-- `n` loaded bytes as they stand. -/
theorem readBytes_eq_ofNat (s : State) (a : Nat) {n : Nat} (hn : n ≤ 8) :
    s.mem.readBytes a n = BitVec.ofNat 64 (s.bytesValue a n) := by
  rw [← (toNat_readBytes s a n hn).1, BitVec.ofNat_toNat, BitVec.setWidth_eq]

/-- `n` loaded bytes, zero-extended. -/
theorem zext_readBytes (s : State) (a : Nat) {n : Nat} (hn : n ≤ 8) :
    zext (8 * n) (s.mem.readBytes a n) = BitVec.ofNat 64 (s.bytesValue a n) := by
  obtain ⟨hval, hlt⟩ := toNat_readBytes s a n hn
  rw [zext_eq _ (by omega), hval, Nat.pow_mul, Nat.mod_eq_of_lt hlt]

/-- Settles O13: each is a load of its size whose extension takes the bytes as signed. -/
theorem signedLoads : Obligations.SignedLoads := by
  intro rd rs1 imm s a
  refine ⟨⟨decode_encode (i := .lb rd rs1 imm) rfl, ?_⟩, ⟨decode_encode (i := .lh rd rs1 imm) rfl, ?_⟩,
    ⟨decode_encode (i := .lw rd rs1 imm) rfl, ?_⟩⟩
  · exact loadInto_contract (w := 8#8) rfl rd (sext_readBytes s a.toNat (n := 1) (by decide))
  · exact loadInto_contract (w := 16#8) rfl rd (sext_readBytes s a.toNat (n := 2) (by decide))
  · exact loadInto_contract (w := 32#8) rfl rd (sext_readBytes s a.toNat (n := 4) (by decide))

/-- Settles O14: each is a load of its size whose extension keeps the bytes' unsigned value. -/
theorem unsignedLoads : Obligations.UnsignedLoads := by
  intro rd rs1 imm s a
  refine ⟨⟨decode_encode (i := .ld rd rs1 imm) rfl, ?_⟩, ⟨decode_encode (i := .lbu rd rs1 imm) rfl, ?_⟩,
    ⟨decode_encode (i := .lhu rd rs1 imm) rfl, ?_⟩, ⟨decode_encode (i := .lwu rd rs1 imm) rfl, ?_⟩⟩
  · exact loadInto_contract (w := 64#8) (ext := id) rfl rd (readBytes_eq_ofNat s a.toNat (n := 8) (by decide))
  · exact loadInto_contract (w := 8#8) rfl rd (zext_readBytes s a.toNat (n := 1) (by decide))
  · exact loadInto_contract (w := 16#8) rfl rd (zext_readBytes s a.toNat (n := 2) (by decide))
  · exact loadInto_contract (w := 32#8) rfl rd (zext_readBytes s a.toNat (n := 4) (by decide))

/-- Settles O15: each is a store of its size. -/
theorem storesWriteExactlyTheirBytes : Obligations.StoresWriteExactlyTheirBytes := by
  intro rs2 rs1 imm s a
  refine ⟨⟨decode_encode (i := .sb rs2 rs1 imm) rfl, ?_⟩, ⟨decode_encode (i := .sh rs2 rs1 imm) rfl, ?_⟩,
    ⟨decode_encode (i := .sw rs2 rs1 imm) rfl, ?_⟩, ⟨decode_encode (i := .sd rs2 rs1 imm) rfl, ?_⟩⟩
  · exact storeFrom_contract (w := 8#8) rfl s a (s.reg rs2)
  · exact storeFrom_contract (w := 16#8) rfl s a (s.reg rs2)
  · exact storeFrom_contract (w := 32#8) rfl s a (s.reg rs2)
  · exact storeFrom_contract (w := 64#8) rfl s a (s.reg rs2)

/-! ## Results written to a register -/

/-- An instruction that ends in a register result only writes that value, however it is spelled. -/
theorem writeResult_onlyWrites (rd : Reg) {v v' : Word} (h : v = v') (s : State) :
    ∃ t, writeResult rd v s = .next t ∧ s.OnlyWrites t rd v' :=
  h ▸ ⟨_, rfl, setReg_onlyWrites s rd v⟩

/-- The same for a value that is known bit by bit. -/
theorem writeResult_bits (rd : Reg) {v : Word} {bit : Nat → Bool} (h : ∀ k < 64, v.getLsbD k = bit k) (s : State) :
    ∃ t u, writeResult rd v s = .next t ∧ s.OnlyWrites t rd u ∧ ∀ k < 64, u.getLsbD k = bit k :=
  ⟨_, v, rfl, setReg_onlyWrites s rd v, h⟩

/-- Bit k of a sign-extended immediate is its bit 11 from bit 11 up. -/
theorem getLsbD_immI (imm : BitVec 12) {k : Nat} (hk : k < 64) : (immI imm).getLsbD k = imm.getLsbD (min k 11) := by
  rw [immI, BitVec.getLsbD_signExtend]
  by_cases h : k < 12
  · have hmin : min k 11 = k := by omega
    simp [h, hk, hmin]
  · have hmin : min k 11 = 11 := by omega
    simp [h, hk, hmin, BitVec.msb_eq_getLsbD_last]

theorem boolWord_decide (p : Prop) [Decidable p] : boolWord (decide p) = if p then 1#64 else 0#64 := by
  by_cases h : p <;> simp [boolWord, h]

theorem ltSigned_eq (a b : Word) : ltSigned a b = decide (a.toInt < b.toInt) := BitVec.slt_eq_decide

theorem ltUnsigned_eq (a b : Word) : ltUnsigned a b = decide (a.toNat < b.toNat) := BitVec.ult_eq_decide

theorem geSigned_eq (a b : Word) : geSigned a b = decide (b.toInt ≤ a.toInt) := by
  rw [geSigned, ltSigned_eq, ← decide_not, decide_eq_decide, Int.not_lt]

theorem geUnsigned_eq (a b : Word) : geUnsigned a b = decide (b.toNat ≤ a.toNat) := by
  rw [geUnsigned, ltUnsigned_eq, ← decide_not, decide_eq_decide, Nat.not_lt]

/-- Set if less than, signed (R133). -/
theorem boolWord_ltSigned (a b : Word) : boolWord (ltSigned a b) = if a.toInt < b.toInt then 1#64 else 0#64 := by
  rw [ltSigned_eq, boolWord_decide]

/-- Set if less than, unsigned (R134). -/
theorem boolWord_ltUnsigned (a b : Word) : boolWord (ltUnsigned a b) = if a.toNat < b.toNat then 1#64 else 0#64 := by
  rw [ltUnsigned_eq, boolWord_decide]

/-- A sign-extended immediate as an unsigned integer (D23). -/
theorem toNat_immI (imm : BitVec 12) : ((immI imm).toNat : Int) = imm.toInt % 2 ^ 64 := by
  rw [immI, signExtend_eq, BitVec.toNat_ofInt, Int.toNat_of_nonneg (Int.emod_nonneg _ (by decide))]
  rfl

/-- Settles O17: the operations act bit by bit, and the extension repeats bit 11. -/
theorem logicalImmediates : Obligations.LogicalImmediates := by
  intro rd rs1 imm s
  refine ⟨⟨decode_encode (i := .xori rd rs1 imm) rfl, ?_⟩, ⟨decode_encode (i := .ori rd rs1 imm) rfl, ?_⟩,
    ⟨decode_encode (i := .andi rd rs1 imm) rfl, ?_⟩⟩
  · exact writeResult_bits rd (fun k hk => by rw [BitVec.getLsbD_xor, getLsbD_immI imm hk]) s
  · exact writeResult_bits rd (fun k hk => by rw [BitVec.getLsbD_or, getLsbD_immI imm hk]) s
  · exact writeResult_bits rd (fun k hk => by rw [BitVec.getLsbD_and, getLsbD_immI imm hk]) s

/-- Settles O18: the comparisons are those of the signed, and of the unsigned, integers. -/
theorem compareImmediates : Obligations.CompareImmediates := by
  intro rd rs1 imm s
  refine ⟨⟨decode_encode (i := .slti rd rs1 imm) rfl, ?_⟩, ⟨decode_encode (i := .sltiu rd rs1 imm) rfl, ?_⟩⟩
  · exact writeResult_onlyWrites rd (by rw [boolWord_ltSigned, toInt_immI]) s
  · exact writeResult_onlyWrites rd (by rw [boolWord_ltUnsigned, ← toNat_immI]; simp only [Int.ofNat_lt]) s

/-- Settles O19: shifts are products and quotients by a power of two. -/
theorem shiftImmediates : Obligations.ShiftImmediates := by
  intro rd rs1 shamt s
  refine ⟨⟨decode_encode (i := .slli rd rs1 shamt) rfl, ?_⟩, ⟨decode_encode (i := .srli rd rs1 shamt) rfl, ?_⟩,
    ⟨decode_encode (i := .srai rd rs1 shamt) rfl, ?_⟩⟩
  · exact writeResult_onlyWrites rd (shl_eq _ _) s
  · exact writeResult_onlyWrites rd (shrLogical_eq _ _) s
  · exact writeResult_onlyWrites rd (shrArith_eq _ _) s

/-! ## The W operations on integers -/

/-- A low half whose value is known modulo 2^32. -/
theorem wResult_ofInt (k : Int) : wResult (lowWord (BitVec.ofInt 64 k)) = BitVec.ofInt 64 (Int.bmod k (2 ^ 32)) := by
  refine wResult_of_emod ?_
  rw [toNat_lowWord, BitVec.toNat_ofInt]
  omega

theorem addw_eq (a b : Word) : addw a b = BitVec.ofInt 64 (Int.bmod (a.toNat + b.toNat : Nat) (2 ^ 32)) := by
  rw [addw, ← wResult_ofInt, BitVec.ofInt_natCast, BitVec.add_def]

theorem addw_immI_eq (a : Word) (imm : BitVec 12) :
    addw a (immI imm) = BitVec.ofInt 64 (Int.bmod (a.toNat + imm.toInt) (2 ^ 32)) := by
  rw [addw, ← wResult_ofInt, immI, add_signExtend_eq]

/-- A difference on integers, narrowed once. -/
theorem sub_eq_ofInt (a b : Word) : a - b = BitVec.ofInt 64 (a.toNat - b.toNat) := by
  rw [Int.sub_eq_add_neg, BitVec.ofInt_add, BitVec.ofInt_neg, BitVec.ofInt_natCast, BitVec.ofInt_natCast, BitVec.ofNat_toNat,
    BitVec.ofNat_toNat, BitVec.setWidth_eq, BitVec.setWidth_eq, BitVec.sub_eq_add_neg]

theorem subw_eq (a b : Word) : subw a b = BitVec.ofInt 64 (Int.bmod (a.toNat - b.toNat) (2 ^ 32)) := by
  rw [subw, ← wResult_ofInt, sub_eq_ofInt]

theorem shlw_eq (v : Word) (n : Nat) : shlw v n = BitVec.ofInt 64 (Int.bmod (v.toNat * 2 ^ n : Nat) (2 ^ 32)) := by
  refine wResult_of_emod ?_
  rw [BitVec.toNat_shiftLeft, toNat_lowWord, Nat.shiftLeft_eq, Nat.mod_mul_mod]
  omega

theorem shrLogicalW_eq (v : Word) (n : Nat) :
    shrLogicalW v n = BitVec.ofInt 64 (Int.bmod (v.toNat % 2 ^ 32 / 2 ^ n : Nat) (2 ^ 32)) := by
  refine wResult_of_emod ?_
  rw [BitVec.toNat_ushiftRight, toNat_lowWord, Nat.shiftRight_eq_div_pow]

theorem shrArithW_eq (v : Word) (n : Nat) :
    shrArithW v n = BitVec.ofInt 64 (Int.bmod (v.toNat : Nat) (2 ^ 32) / 2 ^ n) := by
  rw [shrArithW, wResult_eq, BitVec.toInt_sshiftRight, toInt_lowWord, Int.shiftRight_eq_div_pow]
  norm_num

/-- Settles O20: each writes the W result of its integer value modulo 2^32. -/
theorem wordImmediates : Obligations.WordImmediates := by
  intro rd rs1 imm shamt s
  refine ⟨⟨decode_encode (i := .addiw rd rs1 imm) rfl, ?_⟩, ⟨decode_encode (i := .slliw rd rs1 shamt) rfl, ?_⟩,
    ⟨decode_encode (i := .srliw rd rs1 shamt) rfl, ?_⟩, ⟨decode_encode (i := .sraiw rd rs1 shamt) rfl, ?_⟩⟩
  · exact writeResult_onlyWrites rd (addw_immI_eq _ _) s
  · exact writeResult_onlyWrites rd (shlw_eq _ _) s
  · exact writeResult_onlyWrites rd (shrLogicalW_eq _ _) s
  · exact writeResult_onlyWrites rd (shrArithW_eq _ _) s

/-! ## Register-register operations -/

theorem mul_eq_ofNat (a b : Word) : a * b = BitVec.ofNat 64 (a.toNat * b.toNat) := by
  rw [BitVec.ofNat_mul, BitVec.ofNat_toNat, BitVec.ofNat_toNat, BitVec.setWidth_eq, BitVec.setWidth_eq]

theorem mul_eq_ofInt (a b : Word) : a * b = BitVec.ofInt 64 (a.toInt * b.toInt) := by
  rw [BitVec.ofInt_mul, BitVec.ofInt_toInt, BitVec.ofInt_toInt]

/-- Settles O22: sum, product and difference modulo 2^64; the product is the same from either reading of the operands. -/
theorem addMultiplySubtract : Obligations.AddMultiplySubtract := by
  intro rd rs1 rs2 s
  refine ⟨⟨decode_encode (i := .add rd rs1 rs2) rfl, ?_⟩, ⟨decode_encode (i := .mul rd rs1 rs2) rfl, ?_⟩,
    ⟨decode_encode (i := .sub rd rs1 rs2) rfl, ?_⟩⟩
  · exact writeResult_onlyWrites rd (BitVec.add_def _ _) s
  · refine ⟨_, rfl, ?_, ?_⟩
    · rw [← mul_eq_ofNat]; exact setReg_onlyWrites s rd _
    · rw [← mul_eq_ofInt]; exact setReg_onlyWrites s rd _
  · exact writeResult_onlyWrites rd (sub_eq_ofInt _ _) s

/-- Settles O23: shifts by the remainder of `x[rs2]` are products and quotients by a power of two. -/
theorem registerShifts : Obligations.RegisterShifts := by
  intro rd rs1 rs2 s n
  have hn : regShamt6 (s.reg rs2) = n := regShamt6_eq _
  refine ⟨⟨decode_encode (i := .sll rd rs1 rs2) rfl, ?_⟩, ⟨decode_encode (i := .srl rd rs1 rs2) rfl, ?_⟩,
    ⟨decode_encode (i := .sra rd rs1 rs2) rfl, ?_⟩⟩ <;> rw [← hn]
  · exact writeResult_onlyWrites rd (shl_eq _ _) s
  · exact writeResult_onlyWrites rd (shrLogical_eq _ _) s
  · exact writeResult_onlyWrites rd (shrArith_eq _ _) s

/-- Settles O24: the comparisons are those of the signed, and of the unsigned, integers. -/
theorem registerCompares : Obligations.RegisterCompares := by
  intro rd rs1 rs2 s
  refine ⟨⟨decode_encode (i := .slt rd rs1 rs2) rfl, ?_⟩, ⟨decode_encode (i := .sltu rd rs1 rs2) rfl, ?_⟩⟩
  · exact writeResult_onlyWrites rd (boolWord_ltSigned _ _) s
  · exact writeResult_onlyWrites rd (boolWord_ltUnsigned _ _) s

/-- Settles O25: the operations act bit by bit. -/
theorem registerLogic : Obligations.RegisterLogic := by
  intro rd rs1 rs2 s
  refine ⟨⟨decode_encode (i := .xor rd rs1 rs2) rfl, ?_⟩, ⟨decode_encode (i := .or rd rs1 rs2) rfl, ?_⟩,
    ⟨decode_encode (i := .and rd rs1 rs2) rfl, ?_⟩⟩
  · exact writeResult_bits rd (fun _ _ => BitVec.getLsbD_xor) s
  · exact writeResult_bits rd (fun _ _ => BitVec.getLsbD_or) s
  · exact writeResult_bits rd (fun _ _ => BitVec.getLsbD_and) s

/-- Settles O26: each writes the W result of its integer value modulo 2^32, the amount being a remainder. -/
theorem wordRegisterOperations : Obligations.WordRegisterOperations := by
  intro rd rs1 rs2 s n
  have hn : regShamt5 (s.reg rs2) = n := regShamt5_eq _
  refine ⟨⟨decode_encode (i := .addw rd rs1 rs2) rfl, ?_⟩, ⟨decode_encode (i := .subw rd rs1 rs2) rfl, ?_⟩,
    ⟨decode_encode (i := .sllw rd rs1 rs2) rfl, ?_⟩, ⟨decode_encode (i := .srlw rd rs1 rs2) rfl, ?_⟩,
    ⟨decode_encode (i := .sraw rd rs1 rs2) rfl, ?_⟩⟩
  · exact writeResult_onlyWrites rd (addw_eq _ _) s
  · exact writeResult_onlyWrites rd (subw_eq _ _) s
  · rw [← hn]; exact writeResult_onlyWrites rd (shlw_eq _ _) s
  · rw [← hn]; exact writeResult_onlyWrites rd (shrLogicalW_eq _ _) s
  · rw [← hn]; exact writeResult_onlyWrites rd (shrArithW_eq _ _) s

/-! ## Control transfer -/

/-- A branch only jumps: to its target when taken, to where the pc stands when not. -/
theorem branchTo_onlyJumps (taken : Bool) (target : Word) (s : State) :
    ∃ t, branchTo taken target s = .next t ∧ s.OnlyJumps t (if taken then target else s.pc) := by
  cases taken
  · exact ⟨s, rfl, self_onlyJumps s⟩
  · exact ⟨_, rfl, setPc_onlyJumps s target⟩

/-- A branch under a condition, its target on integers (R180). -/
theorem branchTo_contract {taken : Bool} {p : Prop} [Decidable p] (off : BitVec 13) (s : State) (h : taken = decide p) :
    ∃ t, branchTo taken (branchTarget s off) s = .next t ∧
      s.OnlyJumps t (if p then BitVec.ofInt 64 (s.pc.toNat - 4 + off.toInt) else s.pc) := by
  have htarget : branchTarget s off = BitVec.ofInt 64 (s.pc.toNat - 4 + off.toInt) := instrAddr_add_signExtend_eq s off
  simpa only [h, htarget, decide_eq_true_eq] using branchTo_onlyJumps taken (branchTarget s off) s

/-- Settles O28: the branch conditions are equality and its negation. -/
theorem equalityBranches : Obligations.EqualityBranches := by
  intro rs1 rs2 off s target
  refine ⟨fun h => decode_encode (i := .beq rs1 rs2 off) h, ?_, fun h => decode_encode (i := .bne rs1 rs2 off) h, ?_⟩
  · exact branchTo_contract off s rfl
  · rw [← ite_not]
    exact branchTo_contract off s (by rw [bne, beq_eq_decide, decide_not])

/-- Settles O29: the branch conditions are those of the signed integers. -/
theorem signedBranches : Obligations.SignedBranches := by
  intro rs1 rs2 off s target
  refine ⟨fun h => decode_encode (i := .blt rs1 rs2 off) h, ?_, fun h => decode_encode (i := .bge rs1 rs2 off) h, ?_⟩
  · exact branchTo_contract off s (ltSigned_eq _ _)
  · exact branchTo_contract off s (geSigned_eq _ _)

/-- Settles O30: the branch conditions are those of the unsigned integers. -/
theorem unsignedBranches : Obligations.UnsignedBranches := by
  intro rs1 rs2 off s target
  refine ⟨fun h => decode_encode (i := .bltu rs1 rs2 off) h, ?_, fun h => decode_encode (i := .bgeu rs1 rs2 off) h, ?_⟩
  · exact branchTo_contract off s (ltUnsigned_eq _ _)
  · exact branchTo_contract off s (geUnsigned_eq _ _)

/-- The link is where the pc stands during execute (D6). -/
theorem linkAddr_eq (s : State) : linkAddr s = s.pc := BitVec.sub_add_cancel s.pc 4#64

/-- A jump only links and jumps, however its target is spelled. -/
theorem jumpAndLink_onlyLinks (rd : Reg) {target target' : Word} (h : target = target') (s : State) :
    ∃ t, jumpAndLink rd (linkAddr s) target s = .next t ∧ s.OnlyLinks t rd s.pc target' := by
  subst h
  rw [linkAddr_eq]
  exact ⟨_, rfl, setRegPc_onlyLinks s rd _ _⟩

/-- Settles O31: both values are computed from the state before, so rd = rs1 makes no difference. -/
theorem jumpsAndLinks : Obligations.JumpsAndLinks := by
  intro rd rs1 imm off s
  refine ⟨decode_encode (i := .jalr rd rs1 imm) rfl, ?_, fun h => decode_encode (i := .jal rd off) h, ?_⟩
  · exact jumpAndLink_onlyLinks rd (add_signExtend_eq _ _) s
  · exact jumpAndLink_onlyLinks rd (instrAddr_add_signExtend_eq s off) s

end Sys2Proof.Machine

/-! The cycle (spec/40_engine.md R100, R110) and what holds of every instruction and every step, read off the five ends of an instruction. -/

namespace Sys2Proof.Machine

/-! ## The fetched word -/

/-- The word a cycle decodes, from the integer value of its four bytes. -/
theorem fetchedWord_eq (s : State) (a : Nat) :
    (s.mem.readBytes a 4).setWidth 32 = BitVec.ofNat 32 (s.bytesValue a 4) := by
  rw [← (toNat_readBytes s a 4 (by decide)).1, BitVec.ofNat_toNat]

/-- A running block whose fetched word decodes performs it with the pc moved past it. -/
theorem step_of_decode {s : State} {i : Instr} (hs : s.status = .running) (hb : s.FetchInBounds)
    (hd : decode ((s.mem.readBytes s.pc.toNat 4).setWidth 32) = .ok i) : step s = exec i (advancePc s) := by
  rw [step_running hs]
  rcases cycle_cases s with ⟨hn, -⟩ | ⟨-, hno, -⟩ | ⟨-, j, hj, hc⟩
  · exact absurd hb hn
  · exact absurd hd (hno i)
  · obtain rfl : j = i := Except.ok.inj (hj.symm.trans hd)
    exact hc

/-- Settles O33: the three ends of a cycle, told apart by the bounds of the fetch and by the decoder. -/
theorem stepIsFetchAdvanceExecute : Obligations.StepIsFetchAdvanceExecute := by
  intro s hs w s4
  have hw : (s.mem.readBytes s.pc.toNat 4).setWidth 32 = w := fetchedWord_eq s _
  refine ⟨fun hn => ?_, fun hb hno => ?_, fun hb i hd => ?_⟩
  · rcases cycle_cases s with ⟨-, hc⟩ | ⟨hb, -⟩ | ⟨hb, -⟩
    · exact ⟨_, (step_running hs).trans hc, setStatus_onlyFaults s _⟩
    · exact absurd hb hn
    · exact absurd hb hn
  · rcases cycle_cases s with ⟨hn, -⟩ | ⟨-, -, hc⟩ | ⟨-, i, hi, -⟩
    · exact absurd hb hn
    · rw [hw] at hc
      exact ⟨_, (step_running hs).trans hc, setStatus_onlyFaults s4 _⟩
    · exact absurd (hw ▸ hi) (hno i)
  · exact step_of_decode hs hb (hw ▸ hd)

/-- A running block at the word of a well-formed instruction performs it with the pc moved past the word. -/
theorem step_of_encoded {s : State} {i : Instr} (hs : s.status = .running) (hb : s.FetchInBounds) (hwf : i.wellFormed = true)
    (hbytes : s.bytesValue s.pc.toNat 4 = (encode i).toNat) : step s = exec i (advancePc s) := by
  refine step_of_decode hs hb ?_
  rw [fetchedWord_eq, hbytes, BitVec.ofNat_toNat, BitVec.setWidth_eq]
  exact decode_encode hwf

/-- Settles O34: the encoding of a well-formed instruction decodes to it. -/
theorem stepRunsTheEncodedInstruction : Obligations.StepRunsTheEncodedInstruction := fun _ _ hs hb hwf hbytes =>
  step_of_encoded hs hb hwf hbytes

/-! ## Values relative to the instruction's own address (R101) -/

theorem exec_beq_taken {s : State} {rs1 rs2 : Reg} (off : BitVec 13) (h : s.reg rs1 = s.reg rs2) :
    exec (.beq rs1 rs2 off) s = .next (s.setPc (instrAddr s + off.signExtend 64)) := by
  have htaken : (s.reg rs1 == s.reg rs2) = true := beq_iff_eq.mpr h
  exact congrArg (fun taken => branchTo taken (branchTarget s off) s) htaken

theorem exec_jal (rd : Reg) (off : BitVec 21) (s : State) : exec (.jal rd off) s =
    .next ((s.setReg rd (instrAddr s + 4#64)).setPc (instrAddr s + off.signExtend 64)) := rfl

theorem exec_auipc_relative (rd : Reg) (imm20 : BitVec 20) (s : State) :
    exec (.auipc rd imm20) s = .next (s.setReg rd (instrAddr s + immU imm20)) := rfl

/-- The own address of an instruction performed after the advance is the pc the cycle began at. -/
theorem instrAddr_advancePc (s : State) : instrAddr (advancePc s) = s.pc := BitVec.add_sub_cancel s.pc 4#64

/-- Settles O32: each step is its instruction after the advance, whose own address is the pc before it. -/
theorem stepsAreRelativeToTheOwnAddress : Obligations.StepsAreRelativeToTheOwnAddress := by
  intro s hs hb
  refine ⟨fun rs1 rs2 off hbytes heven heq => ?_, fun rd off hbytes heven => ?_, fun rd imm20 hbytes => ?_⟩
  · refine ⟨_, ?_, setPc_onlyJumps s _⟩
    rw [step_of_encoded (i := .beq rs1 rs2 off) hs hb heven hbytes, exec_beq_taken (s := advancePc s) off heq, instrAddr_advancePc]
    rfl
  · refine ⟨_, ?_, setRegPc_onlyLinks s rd _ _⟩
    rw [step_of_encoded (i := .jal rd off) hs hb heven hbytes, exec_jal, instrAddr_advancePc]
    rfl
  · refine ⟨_, ?_, setRegPc_onlyLinks s rd _ _⟩
    rw [step_of_encoded hs hb rfl hbytes, exec_auipc_relative, instrAddr_advancePc]
    rfl

/-! ## What every instruction keeps -/

/-- Settles O36: each of the five ends is a next state that keeps the configuration. -/
theorem everyInstructionExecutesInEveryState : Obligations.EveryInstructionExecutesInEveryState := by
  intro i s
  obtain ⟨t, ht, hend⟩ := exec_ends i s
  exact ⟨t, ht, by cases hend <;> rfl⟩

/-- Settles O37: only the faulting end changes the status, and it changes nothing else. -/
theorem faultingInstructionsHaveNoEffect : Obligations.FaultingInstructionsHaveNoEffect := by
  intro i s t hs h hstopped
  cases exec_cases h with
  | faulted a n _ _ _ hm => exact ⟨hm, a, n, setStatus_onlyFaults s _⟩
  | result | stored | branched | jumped => exact absurd hs hstopped

/-- Settles O38: a register result and a link go to the destination register, and no other end writes one. -/
theorem onlyTheDestinationRegisterChanges : Obligations.OnlyTheDestinationRegisterChanges := by
  intro i s t h r hr
  cases exec_cases h with
  | result rd v hd | jumped rd v _ hd => exact s.reg_setReg_other v fun e => hr (e ▸ hd)
  | stored | faulted | branched => rfl

/-- Settles O39: the one end that writes memory is a store's. -/
theorem onlyStoresChangeMemory : Obligations.OnlyStoresChangeMemory := by
  intro i s t h hs a
  cases exec_cases h with
  | stored _ _ _ _ _ _ hstore => exact absurd hstore (by simp [hs])
  | result | faulted | branched | jumped => rfl

/-- Settles O40: the two ends that move the pc are those of branches and jumps. -/
theorem onlyControlTransfersMoveThePc : Obligations.OnlyControlTransfersMoveThePc := by
  intro i s t h hc
  cases exec_cases h with
  | branched _ _ htransfer | jumped _ _ _ _ htransfer => exact absurd htransfer (by simp [hc])
  | result | stored | faulted => rfl

/-! ## What every step keeps -/

/-- Settles O35: a faulted block answers its fault, a running one a next state. -/
theorem stepStopsExactlyWhenFaulted : Obligations.StepStopsExactlyWhenFaulted := by
  intro s
  cases hs : s.status with
  | faulted f =>
    rw [step_faulted hs]
    refine ⟨fun r h => (by cases h), fun g => ⟨fun h => ?_, fun h => ?_⟩, fun h => (by cases h)⟩
    · rw [Host.Outcome.fault.inj h]
    · rw [RunStatus.faulted.inj h]
  | running =>
    have hnext : ∃ t, step s = .next t := by
      rw [step_running hs]
      rcases cycle_cases s with ⟨-, hc⟩ | ⟨-, -, hc⟩ | ⟨-, i, -, hc⟩
      · exact ⟨_, hc⟩
      · exact ⟨_, hc⟩
      · obtain ⟨t, ht, -⟩ := exec_ends i (advancePc s)
        exact ⟨t, hc.trans ht⟩
    obtain ⟨t, ht⟩ := hnext
    rw [ht]
    exact ⟨fun r h => (by cases h), fun f => ⟨fun h => (by cases h), fun h => (by cases h)⟩, fun _ => ⟨t, rfl⟩⟩

/-- The three ways a step comes to a next state. -/
inductive StepEnd (s : State) : State → Prop where
  /-- The fetch is out of bounds. -/
  | fetchFault (hb : ¬ s.FetchInBounds) : StepEnd s (s.setStatus (.faulted (.outOfBounds s.pc 4)))
  /-- The fetched word is no instruction. -/
  | decodeFault (w : InstrWord) (hno : ∀ i, decode w ≠ .ok i) :
      StepEnd s ((advancePc s).setStatus (.faulted (.unimplementedInstruction w)))
  /-- An instruction is performed. -/
  | performed (i : Instr) {t : State} (he : ExecEnd i (advancePc s) t) : StepEnd s t

theorem step_cases {s t : State} (h : step s = .next t) : s.status = .running ∧ StepEnd s t := by
  obtain ⟨hs, hcycle⟩ := step_next h
  refine ⟨hs, ?_⟩
  rcases cycle_cases s with ⟨hb, hc⟩ | ⟨-, hno, hc⟩ | ⟨-, i, -, hc⟩
  · obtain rfl := Host.Outcome.next.inj (hc.symm.trans hcycle)
    exact .fetchFault hb
  · obtain rfl := Host.Outcome.next.inj (hc.symm.trans hcycle)
    exact .decodeFault _ hno
  · exact .performed i (exec_cases (hc.symm.trans hcycle))

/-- Settles O45: neither a fault nor any end of an instruction touches the configuration. -/
theorem stepKeepsTheConfiguration : Obligations.StepKeepsTheConfiguration := by
  intro s t h
  obtain ⟨-, hend⟩ := step_cases h
  cases hend with
  | fetchFault | decodeFault => rfl
  | performed i he => cases he <;> rfl

/-! ## The invariant -/

theorem State.Inv.setPc {s : State} (h : s.Inv) (target : Word) : (s.setPc target).Inv where
  cfgValid := h.cfgValid
  memWf := h.memWf
  memInWindow := h.memInWindow
  zeroSlot := h.zeroSlot
  faultHonest := h.faultHonest

theorem State.Inv.setReg {s : State} (h : s.Inv) (rd : Reg) (v : Word) : (s.setReg rd v).Inv where
  cfgValid := h.cfgValid
  memWf := h.memWf
  memInWindow := h.memInWindow
  zeroSlot := (s.setReg_zeroSlot rd v).trans h.zeroSlot
  faultHonest := h.faultHonest

theorem State.Inv.writeBytes {s : State} (h : s.Inv) {a : Word} {n : Nat} (v : Word) (hb : InBounds s.cfg a n) :
    (s.setMem (s.mem.writeBytes a.toNat n v)).Inv where
  cfgValid := h.cfgValid
  memWf := Memory.writeBytes_wf _ n v h.memWf
  memInWindow := Memory.writeBytes_inWindow _ n v h.memInWindow hb
  zeroSlot := h.zeroSlot
  faultHonest := h.faultHonest

theorem State.Inv.fault {s : State} (h : s.Inv) {f : Fault} (hf : FaultIsHonest s.cfg f) : (s.setStatus (.faulted f)).Inv where
  cfgValid := h.cfgValid
  memWf := h.memWf
  memInWindow := h.memInWindow
  zeroSlot := h.zeroSlot
  faultHonest _ hg := RunStatus.faulted.inj hg ▸ hf

/-- Every end of an instruction keeps the invariant. -/
theorem ExecEnd.inv {i : Instr} {s t : State} (he : ExecEnd i s t) (h : s.Inv) : t.Inv := by
  cases he with
  | result rd v => exact h.setReg rd v
  | stored a n v hb => exact h.writeBytes v hb
  | faulted a n hn hb => exact h.fault ⟨hn, hb⟩
  | branched target => exact h.setPc target
  | jumped rd link target => exact (h.setReg rd link).setPc target

/-- Settles O42: the recorded fault of each faulting end is true, and every other end keeps the parts of the invariant one by one. -/
theorem stepKeepsTheInvariant : Obligations.StepKeepsTheInvariant := by
  intro s t h hstep
  obtain ⟨-, hend⟩ := step_cases hstep
  cases hend with
  | fetchFault hb => exact h.fault ⟨by decide, hb⟩
  | decodeFault w hno => exact (h.setPc _).fault hno
  | performed i he => exact he.inv (h.setPc _)

/-- An instruction's end never records an unsupported width. -/
theorem ExecEnd.status_ne_unsupportedWidth {i : Instr} {s t : State} (he : ExecEnd i s t) (hs : s.status = .running)
    (width : BitVec 8) : t.status ≠ .faulted (.unsupportedWidth width) := by
  have hrunning : s.status ≠ .faulted (.unsupportedWidth width) := by rw [hs]; exact RunStatus.noConfusion
  cases he with
  | faulted => simp
  | result | stored | branched | jumped => exact hrunning

/-- Settles O41: the faults a step records are of the two other kinds. -/
theorem noStepRaisesUnsupportedWidth : Obligations.NoStepRaisesUnsupportedWidth := by
  intro s t width h
  obtain ⟨hs, hend⟩ := step_cases h
  cases hend with
  | fetchFault | decodeFault => simp
  | performed i he => exact he.status_ne_unsupportedWidth hs width

/-- Settles O43: at reset memory lists nothing and no fault is recorded. -/
theorem resetMeetsTheInvariant : Obligations.ResetMeetsTheInvariant where
  cfgValid := by decide
  memWf := ⟨.nil, by simp [State.reset, State.initialized]⟩
  memInWindow := by simp [State.reset, State.initialized]
  zeroSlot := rfl
  faultHonest f h := by cases h

/-! ## Initialization -/

theorem hostInitialize_fits {c : Config} {initMem : Memory} {image : List Byte} (h : image.length ≤ c.memSize) :
    hostInitialize c initMem image = .next (State.initialized c (initMem.writeImage c.memBase.toNat image)) := if_pos h

theorem hostInitialize_tooLong {c : Config} {initMem : Memory} {image : List Byte} (h : c.memSize < image.length) :
    hostInitialize c initMem image = .refused (.imageTooLong image.length) := if_neg (Nat.not_le.mpr h)

theorem hostInitialize_next {c : Config} {initMem : Memory} {image : List Byte} {t : State}
    (h : hostInitialize c initMem image = .next t) :
    t = State.initialized c (initMem.writeImage c.memBase.toNat image) := by
  by_cases hfit : image.length ≤ c.memSize
  · exact (Host.Outcome.next.inj ((hostInitialize_fits hfit).symm.trans h)).symm
  · rw [hostInitialize_tooLong (Nat.not_le.mp hfit)] at h
    cases h

theorem reg_created (c : Config) (initMem : Memory) (r : Reg) : (State.created c initMem).reg r = 0#64 := by
  simp [State.reg, State.created, zeroRegs]

/-- After initialization x2 is one past RAM and every other register 0 (R32). -/
theorem reg_initialized (c : Config) (m : Memory) (r : Reg) :
    (State.initialized c m).reg r = if r = 2 then ramEnd c else 0#64 := by
  by_cases h2 : r = 2
  · subst h2
    simp [State.reg, State.initialized, initRegs]
  · have hv : 2 ≠ r.val := fun e => h2 (Fin.ext e.symm)
    simp [State.reg, State.initialized, initRegs, zeroRegs, h2, Vector.getElem_set_ne, hv]

/-- Settles O44: laying down an image that fits keeps memory canonical and inside RAM. -/
theorem initializeMeetsTheInvariant : Obligations.InitializeMeetsTheInvariant := by
  intro c initMem image hc hwf hwin hfit
  refine ⟨_, hostInitialize_fits hfit, ?_⟩
  exact {
    cfgValid := hc
    memWf := Memory.writeImage_wf _ image hwf
    memInWindow := Memory.writeImage_inWindow _ image hwin ⟨Nat.le_refl _, Nat.add_le_add_left hfit _⟩
    zeroSlot := rfl
    faultHonest := fun f h => by cases h }

/-- Settles O46: each piece of state is read off; the bytes are those of the image laid over `INIT_MEM`. -/
theorem initializeSetsEveryPieceOfState : Obligations.InitializeSetsEveryPieceOfState := by
  intro c initMem image
  refine ⟨reg_created c initMem, rfl, fun hfit => ?_, hostInitialize_tooLong⟩
  refine ⟨_, hostInitialize_fits hfit, reg_initialized c _, rfl, rfl, rfl, fun k hk => ?_, fun a ha => ?_⟩
  · refine (Memory.read_writeImage _ _ _ _).trans ?_
    rw [dif_pos (by omega)]
    simp
  · exact (Memory.read_writeImage _ _ _ _).trans (dif_neg (by omega))

/-- Settles O48: no byte lies past the end of RAM, and the bytes below it are RAM's last. -/
theorem initialStackPointerIsOnePastRam : Obligations.InitialStackPointerIsOnePastRam := by
  intro c initMem image t hc h
  obtain rfl := hostInitialize_next h
  rw [reg_initialized, if_pos rfl]
  exact ⟨fun n hn => not_inBounds_ramEnd hc (one_le_of_size hn), fun n _ hsize => inBounds_below_ramEnd hc hsize⟩

/-- Settles O49: the dump is a map over the register numbers in order. -/
theorem dumpRegistersListsAllInOrder : Obligations.DumpRegistersListsAllInOrder := by
  intro s
  refine ⟨by simp [dumpRegisters], by simp [dumpRegisters, List.finRange_succ], fun r => ?_⟩
  simp [dumpRegisters]

/-! ## Words that come to be fetched -/

/-- Four bytes read where they stand, least significant first. -/
theorem setWidth_readBytes_four (m : Memory) (a : Nat) :
    (m.readBytes a 4).setWidth 32 = m.read (a + 3) ++ m.read (a + 2) ++ m.read (a + 1) ++ m.read a := by
  refine BitVec.eq_of_getLsbD_eq fun i hi => ?_
  rw [BitVec.getLsbD_setWidth, Memory.getLsbD_readBytes _ _ _ _ (by omega)]
  simp only [BitVec.getLsbD_append]
  interval_cases i <;> simp

/-- Settles O47: the four bytes at `MEM_BASE` are the image's first, and they stand in RAM. -/
theorem firstCycleRunsTheFirstImageWord : Obligations.FirstCycleRunsTheFirstImageWord := by
  intro c initMem b0 b1 b2 b3 rest i hfit hd
  refine ⟨_, hostInitialize_fits hfit, step_of_decode rfl ?_ ?_⟩
  · exact inBounds_base (Nat.le_trans (by simp) hfit)
  · rw [setWidth_readBytes_four]
    simpa [State.initialized, Memory.read_writeImage] using hd

/-- A word stored in four bytes is the word fetched from them. -/
theorem setWidth_readBytes_writeBytes (m : Memory) (a : Nat) (v : Word) :
    ((m.writeBytes a 4 v).readBytes a 4).setWidth 32 = v.setWidth 32 := by
  refine BitVec.eq_of_toNat_eq ?_
  rw [BitVec.toNat_setWidth, BitVec.toNat_setWidth]
  have hread := Memory.toNat_readBytes_writeBytes m a (j := 0) v (Nat.zero_add 4).le (by decide)
  simp only [Nat.add_zero, Nat.mul_zero, Nat.pow_zero, Nat.div_one] at hread
  omega

theorem decode_of_decodeTableWord {w : Nat} {i : Instr} (h : decodeTableWord 32 w = some i) :
    decode (BitVec.ofNat 32 (w % 2 ^ 32)) = .ok i := by
  unfold decodeTableWord at h
  split at h
  · next hd => rw [hd, Option.some.inj h]
  · cases h

/-- A word placed at a pc inside RAM is stored in the four bytes there. -/
theorem placeWordAtPc_inBounds {s : State} (hb : s.FetchInBounds) (w : InstrWord) :
    placeWordAtPc s w = s.setMem (s.mem.writeBytes s.pc.toNat 4 (w.setWidth 64)) := by
  rw [placeWordAtPc, busStore_ok rfl hb]

/-- Settles O51: the word placed is the word fetched, narrowed back. -/
theorem placedWordRunsNext : Obligations.PlacedWordRunsNext := by
  intro s w i hs hb hd
  rw [State.withFetchWord, placeWordAtPc_inBounds hb]
  refine step_of_decode hs hb ?_
  rw [State.setMem_mem, State.setMem_pc, setWidth_readBytes_writeBytes, BitVec.setWidth_setWidth_of_le _ (by decide), BitVec.setWidth_eq]
  exact decode_of_decodeTableWord hd

/-- SW with an in-bounds address stores the word and leaves the pc past itself. -/
theorem exec_sw_inBounds {s : State} (rs2 rs1 : Reg) (imm : BitVec 12) (hb : InBounds s.cfg (storeAddr s rs1 imm) 4) :
    exec (.sw rs2 rs1 imm) s = .next (s.setMem (s.mem.writeBytes (storeAddr s rs1 imm).toNat 4 (s.reg rs2))) := by
  show storeFrom _ _ _ _ = _
  rw [storeFrom, busStore_ok rfl hb]

/-- Settles O50: the SW ends with the instruction's word in the four bytes at the new pc, and the next step decodes it. -/
theorem storedInstructionRunsNext : Obligations.StoredInstructionRunsNext := by
  intro s rs2 rs1 imm i hs hb hb' hbytes haddr hwf hword
  have haddr' : storeAddr (advancePc s) rs1 imm = s.pc + 4#64 := haddr
  have hstep := step_of_encoded hs hb rfl hbytes
  rw [exec_sw_inBounds rs2 rs1 imm (by rw [haddr']; exact hb'), haddr'] at hstep
  have hpc : s.pc + 8#64 = s.pc + 4#64 + 4#64 := by rw [BitVec.add_assoc]; rfl
  have hstored : (s.reg rs2).setWidth 32 = encode i := BitVec.eq_of_toNat_eq ((BitVec.toNat_setWidth _ _).trans hword)
  refine ⟨_, hstep, rfl, ?_⟩
  rw [hpc]
  refine step_of_decode hs hb' ((congrArg decode (setWidth_readBytes_writeBytes s.mem _ _)).trans ?_)
  exact hstored ▸ decode_encode hwf

end Sys2Proof.Machine
